-- ==== Sys2Proof/Word.lean ====
section
/-!
DEFINITION. The words the block is handed. Spec: 30_encoding.md R60, R61; 20_memory.md R41, R43.

A pattern is one unsigned word, bit 0 least significant (92_eei_decisions.md D15); bytes never appear.
A request is the pair `(op, a)`; the operand is carried on the 64-bit operand bus of R43(b) (log entry 5).
-/

namespace Sys2Proof

/-- The operation code `op`, two bits (R61). -/
abbrev OpCode := BitVec 2

/-- A word on the shared operand or result bus, `a[63:0]` or `y[63:0]` (R43). -/
abbrev Bus := BitVec 64

/-- A request `(op, a)` (R60): the host's one kind of transaction. -/
structure Request where
  op : OpCode
  a : Bus
  deriving DecidableEq, Repr

end Sys2Proof
end

