-- ==== Sys2Proof/Syntax.lean ====
section
/-!
DEFINITION. The instructions: one constructor per row of spec/opcode_table.json. Spec: 30_encoding.md R62,
R63, R64, R67.

An instruction is an operation with its operand, the line `<MNEMONIC> <operand>` of R67: the operand is a
whole pattern of the operation's format (R62), so it is a field of the constructor at that format's width.
-/

namespace Sys2Proof

/-- The four operations of R64, each with the operand it is performed on. -/
inductive Instr where
  /-- `SQRT.S`, op 00 (R180) -/
  | sqrtS (x : BitVec 32)
  /-- `SQRT.D`, op 01 (R190) -/
  | sqrtD (x : BitVec 64)
  /-- `DEC.S`, op 10 (R121) -/
  | decS (x : BitVec 32)
  /-- `DEC.D`, op 11 (R122) -/
  | decD (x : BitVec 64)
  deriving DecidableEq, Repr

end Sys2Proof
end

