-- ==== Sys2Proof/Decode.lean ====
section
/-!
DEFINITION. Decoding a request and encoding an instruction. Spec: 30_encoding.md R61, R62, R64, R65;
20_memory.md R43.

The decoder is total and rejects nothing: all four codes are operations and every operand is legal (R65),
so there is no name to reject by.
-/

namespace Sys2Proof

/-- The field `unit` of the code: `op[1]`, set for the decomposer (R61). -/
def opUnit (op : OpCode) : Bool := op.getLsbD 1

/-- The field `fmt` of the code: `op[0]`, set for format D (R61). -/
def opFmt (op : OpCode) : Bool := op.getLsbD 0

/-- Operand assembly for the `.S` operations: `a[31:0]` as it stands, `a[63:32]` ignored (R62, R43(b)). -/
def operandS (a : Bus) : BitVec 32 := a.extractLsb' 0 32

/-- Operand assembly for the `.D` operations: all of `a[63:0]` (R62). -/
def operandD (a : Bus) : BitVec 64 := a

/-- The opcode map of R64. -/
def decode (r : Request) : Instr :=
  match opUnit r.op, opFmt r.op with
  | false, false => .sqrtS (operandS r.a)
  | false, true => .sqrtD (operandD r.a)
  | true, false => .decS (operandS r.a)
  | true, true => .decD (operandD r.a)

/-- A 32-bit operand on the 64-bit operand bus. The upper half is not read by any operation (R43(b)); the
encoder leaves it zero (log entry 5). -/
def busOfS (x : BitVec 32) : Bus := x.setWidth 64

/-- The request for an instruction: the code of its row of R64, then its operand (R67). -/
def encode : Instr → Request
  | .sqrtS x => { op := 0b00#2, a := busOfS x }
  | .sqrtD x => { op := 0b01#2, a := x }
  | .decS x => { op := 0b10#2, a := busOfS x }
  | .decD x => { op := 0b11#2, a := x }

/-- A request is canonical when it carries nothing the block ignores: on a `.S` operation the unread upper
half of the bus is zero. These are the requests `encode` makes. -/
def Request.canonical (r : Request) : Bool :=
  opFmt r.op || r.a.extractLsb' 32 32 == 0#32

/-- The request whose bits are the low `nbits` bits of `w`, counted as the opcode table counts them: the
code is bits 1..0, and the operand word counts on from bit 2 (R67: "The encoding of a line is its 2-bit op
followed by its operand"). Bits above `nbits` are zero, so a bare row has operand zero (log entry 6). -/
def requestOfTableWord (nbits w : Nat) : Request :=
  { op := BitVec.ofNat 2 (w % 2 ^ nbits), a := BitVec.ofNat 64 (w % 2 ^ nbits / 4) }

/-- The decoder's answer for a word numbered as spec/opcode_table.json numbers it. -/
def decodeTableWord (nbits w : Nat) : Option Instr :=
  some (decode (requestOfTableWord nbits w))

end Sys2Proof
end

