-- ==== Sys2Proof/Config.lean ====
section
/-!
DEFINITION. What is fixed when the block is built. Spec: 00_scope.md R5 to R8.

The two formats (their field widths; everything else of R5 follows from the widths and stands in
Machine/Operands.lean), and the open NaN parameters of R8 as free values: the constants below have no
body, so no proof can see which NaN pattern a block returns (log entry 1).
-/

namespace Sys2Proof

/-- A binary floating-point format, given by the widths of its two fields below the sign (R5). -/
structure Format where
  /-- width of the stored exponent -/
  ew : Nat
  /-- width of the mantissa field -/
  mw : Nat
  deriving DecidableEq, Repr

/-- `W`, the width of a pattern: sign, stored exponent, mantissa field (R5, R6). -/
abbrev Format.w (F : Format) : Nat := 1 + F.ew + F.mw

/-- Format S, 32 bits (R5). -/
abbrev fmtS : Format := ⟨8, 23⟩

/-- Format D, 64 bits (R5). -/
abbrev fmtD : Format := ⟨11, 52⟩

/-- `NanConfig` of 10_state.md section 3, at one format: what the block answers for a NaN operand
(`prop` is NANPROP_F) and for an invalid operand (`inv` is NANINV_F). Each is a function of the operand
alone (R8). The constraint R8 puts on an instance is `NanOk` of Machine/Nan.lean. -/
structure NanConfig (F : Format) where
  prop : BitVec F.w → BitVec F.w
  inv : BitVec F.w → BitVec F.w

namespace Config

/-! The free choices of the NaN results, one per parameter of R8. A NaN pattern of format F is a sign and
a nonzero mantissa field; the choice is the sign and the mantissa field less one, so that every NaN pattern
of the format is a choice and nothing else is (2^24 - 2 of them for S, 2^53 - 2 for D:
93_implementation_defined.md U1, U2). -/

/-- The free choice behind NANPROP_S: `SQRT.S` of a NaN. -/
opaque nanPropS : BitVec 32 → BitVec 1 × Fin 8388607

/-- The free choice behind NANINV_S: `SQRT.S` of -infinity or of a negative finite nonzero value. -/
opaque nanInvS : BitVec 32 → BitVec 1 × Fin 8388607

/-- The free choice behind NANPROP_D: `SQRT.D` of a NaN. -/
opaque nanPropD : BitVec 64 → BitVec 1 × Fin 4503599627370495

/-- The free choice behind NANINV_D: `SQRT.D` of -infinity or of a negative finite nonzero value. -/
opaque nanInvD : BitVec 64 → BitVec 1 × Fin 4503599627370495

/-- The `w`-bit pattern that stands for a negative exponent field where a listing's line writes it as an operand.
R67 allows the form and no rule says which pattern it is (log entry 13). -/
opaque negativeFieldBits (w : Nat) : Int → BitVec w

end Config

end Sys2Proof
end

