-- ==== Sys2Proof/Machine/State.lean ====
section
/-!
DEFINITION. What the machine holds, what it answers, and why it could stop. Spec: 10_state.md R20 to R27;
30_encoding.md R60, R63; 41_decomposer.md R110, R116, R117; 60_exceptions.md R200, R203.

The spec gives the block no state at all (R20 to R26): no register, program counter, flag, mode or memory.
What `State` holds is the transaction, which the spec calls values and not latches (R21): the requests the
host has presented and not yet had answered, and the responses it has been given. No operation reads either
list (log entry 2).
-/

namespace Sys2Proof.Machine

/-- The five classes of R116. -/
inductive Cls where
  | zero
  | subnormal
  | normal
  | inf
  | nan
  deriving DecidableEq, Repr

/-- The record `DEC.F` returns, at format F (R110). `uexp`, `nexp` and `sh` are the integers the rules
compute; the field widths R110 lists for them hold every value the rules produce (log entry 8). -/
structure DecRecord (F : Format) where
  /-- the top bit -/
  sign : BitVec 1
  /-- the stored (biased) exponent -/
  efield : BitVec F.ew
  /-- the mantissa field -/
  mfield : BitVec F.mw
  /-- the special-value class -/
  cls : Cls
  /-- `efield - BIAS`, sentinels included -/
  uexp : Int
  /-- left shifts applied to renormalise a subnormal -/
  sh : Nat
  /-- true exponent after renormalisation -/
  nexp : Int
  /-- significand, leading bit explicit at bit `MW` -/
  sig : BitVec (F.mw + 1)
  deriving DecidableEq, Repr

/-- What a response carries, one form per operation (R63). No response carries a status or a flag. -/
inductive Response where
  | sqrtS (y : BitVec 32)
  | sqrtD (y : BitVec 64)
  | decS (d : DecRecord fmtS)
  | decD (d : DecRecord fmtD)
  deriving DecidableEq, Repr

/-- The transaction between the host and the block. -/
structure State where
  /-- requests presented and not yet answered, oldest first -/
  requests : List Request
  /-- responses given, oldest first -/
  responses : List Response
  deriving DecidableEq, Repr

/-- The block raises nothing: "The set of exception causes is empty" (R200). -/
inductive Fault where
  deriving DecidableEq, Repr

/-- The block refuses nothing: "No request is refused" (R203). -/
inductive Refusal where
  /-- Raised by nobody: every arm of `exec` has its meaning. Safe: a run that met it would stop. -/
  | notModelled (mnemonic : String)
  deriving DecidableEq, Repr

/-- After reset nothing is outstanding and nothing has been answered. The spec's list of state with a reset
value is empty (R27, R220), so these two values are the model's own (log entry 3). -/
def State.reset : State := { requests := [], responses := [] }

end Sys2Proof.Machine
end

