-- ==== Sys2Proof/Machine/Flags.lean ====
section
/-!
DEFINITION. The conditions the operations branch on. Spec: 41_decomposer.md R116, R117; 10_state.md R23.

The block has no flags, no condition codes and no sticky exception flags, and no operation writes one (R23).
What stands in their place is the class of a pattern, a classification derived from the operand.
-/

namespace Sys2Proof.Machine

/-- `EMAX_FIELD`, the all-ones stored exponent `2^EW - 1` (R5). -/
def emaxField (F : Format) : Nat := 2 ^ F.ew - 1

/-- The class, decided by the stored exponent and the mantissa field alone (R116). -/
def classOf (F : Format) (e : BitVec F.ew) (f : BitVec F.mw) : Cls :=
  if e.toNat = emaxField F then (if f.toNat = 0 then .inf else .nan)
  else if e.toNat = 0 then (if f.toNat = 0 then .zero else .subnormal)
  else .normal

/-- The 3-bit code of a class on wires (R117). -/
def Cls.code : Cls → BitVec 3
  | .zero => 0
  | .subnormal => 1
  | .normal => 2
  | .inf => 3
  | .nan => 4

end Sys2Proof.Machine
end

