-- ==== Sys2Proof/Machine/Operands.lean ====
section
/-!
DEFINITION. The bit-field constants, the split of a pattern into its fields and its recomposition, and the
leading-zero count. Spec: 00_scope.md R5, R6; 40_formats_constants.md R80 to R87, R91, R92;
41_decomposer.md R111 to R113.

Everything is written once over the format (00_scope.md section 5.4).
-/

namespace Sys2Proof.Machine

/-! ### The parameters of R5 that follow from the field widths -/

/-- `BIAS` (R83), `2^(EW-1) - 1` by R6: 127 and 1023. -/
def bias (F : Format) : Nat := 2 ^ (F.ew - 1) - 1

/-- `MAX_EXP`, equal to `BIAS` (R6). -/
def maxExp (F : Format) : Nat := bias F

/-- `EXP_DENORM = 0 - BIAS`: the denormal-zone sentinel, in the true-exponent domain (R85). -/
def expDenorm (F : Format) : Int := -(bias F : Int)

/-- `EXP_NANINF = MAX_EXP + 1`: the NaN/Infinity-zone sentinel, in the true-exponent domain (R86). -/
def expNanInf (F : Format) : Int := maxExp F + 1

/-- `P`, the precision (R5). -/
def precision (F : Format) : Nat := F.mw + 1

/-- `NITER = MW + 2`, the iteration count: 25 and 54 (R5, R148; 90_conflicts.md C3). -/
def niter (F : Format) : Nat := F.mw + 2

/-! ### The masks -/

/-- `SIGN_MASK = 1 << (W-1)` (R80). -/
def signMask (F : Format) : BitVec F.w := BitVec.ofNat F.w (1 <<< (F.w - 1))

/-- `EXP_MASK = (2^EW - 1) << MW` (R81). -/
def expMask (F : Format) : BitVec F.w := BitVec.ofNat F.w ((2 ^ F.ew - 1) <<< F.mw)

/-- `MANT_MASK = 2^MW - 1` (R82). -/
def mantMask (F : Format) : BitVec F.w := BitVec.ofNat F.w (2 ^ F.mw - 1)

/-- `IMPLICIT_BIT = 1 << MW` (R87). -/
def implicitBit (F : Format) : Nat := 1 <<< F.mw

/-- The first trial bit `1 << (MW+1)` (R87). -/
def firstTrial (F : Format) : Nat := 1 <<< (F.mw + 1)

/-! ### Field split and recomposition -/

/-- `x[W-1]` (R111). -/
def signField (F : Format) (x : BitVec F.w) : BitVec 1 := x.extractLsb' (F.w - 1) 1

/-- `x[W-2:MW]` (R112). -/
def expField (F : Format) (x : BitVec F.w) : BitVec F.ew := x.extractLsb' F.mw F.ew

/-- `x[MW-1:0]` (R113). -/
def mantField (F : Format) (x : BitVec F.w) : BitVec F.mw := x.extractLsb' 0 F.mw

/-- `PACK_F(sign, efield, mfield) = sign ++ efield ++ mfield` (R91). -/
def pack (F : Format) (s : BitVec 1) (e : BitVec F.ew) (f : BitVec F.mw) : BitVec F.w :=
  s ++ e ++ f

/-- The class of a pattern (R116). -/
def classify (F : Format) (x : BitVec F.w) : Cls := classOf F (expField F x) (mantField F x)

/-- `clz_N(v)`: `N - 1 -` the index of the highest set bit, and `N` for zero (00_scope.md section 5.2). -/
def clz {n : Nat} (v : BitVec n) : Nat :=
  if v.toNat = 0 then n else n - 1 - v.toNat.log2

end Sys2Proof.Machine
end

