-- ==== Sys2Proof/Machine/Ops.lean ====
section
/-!
DEFINITION. The named operations on the transaction: taking the next request and giving a response. Spec:
30_encoding.md R60; 20_memory.md R43, R46; 60_exceptions.md R200, R206.

Taking an exception and returning from one do not exist in this block (R200, R206: "There is no trap entry"),
and there is no memory and no register to read or write (R20, R40), so these are all of its operations.
-/

namespace Sys2Proof.Machine

/-- The next request, the oldest one outstanding, and the state without it; `none` when no request is
outstanding (log entry 4). -/
def takeRequest (s : State) : Option (Request × State) :=
  match s.requests with
  | [] => none
  | r :: rest => some (r, { s with requests := rest })

/-- With no request the block does nothing: it answers requests and has no other activity (R60; log entry 4). -/
def idle (s : State) : Host.Outcome State Fault Refusal := .next s

/-- One request produces exactly one response (R60), given after the earlier ones. -/
def State.answered (s : State) (y : Response) : State :=
  { s with responses := s.responses ++ [y] }

/-- An operation ends by giving its response. It has no other effect (R43(d)) and cannot fail (R200). -/
def respond (y : Response) (s : State) : Host.Outcome State Fault Refusal :=
  .next (s.answered y)

/-- Presenting a request where the block takes its next one: it becomes the oldest outstanding request, in
place of the one that stood there (log entry 6). -/
def State.withNextRequest (s : State) (r : Request) : State :=
  { s with requests := r :: s.requests.tail }

/-- The shared 64-bit result bus `y[63:0]`: `SQRT.S` drives zero above its result (R43(b)). The record of
`DEC.F` is not a bus word. -/
def Response.bus : Response → Option Bus
  | .sqrtS y => some (y.setWidth 64)
  | .sqrtD y => some y
  | .decS _ => none
  | .decD _ => none

end Sys2Proof.Machine
end

