-- ==== Sys2Proof/Machine/Decompose.lean ====
section
/-!
DEFINITION. The decomposer, and the operations `DEC.S` and `DEC.D`. Spec: 41_decomposer.md R110 to R122.
-/

namespace Sys2Proof.Machine

/-- `uexp = efield - BIAS` (R115). -/
def trueExp (F : Format) (x : BitVec F.w) : Int := (expField F x).toNat - (bias F : Int)

/-- The shift that moves the highest set bit of a subnormal's mantissa field to bit `MW`:
`clz_W(zext_W(mfield)) - EW` (R118). -/
def subnormalShift (F : Format) (f : BitVec F.mw) : Nat := clz (f.setWidth F.w) - F.ew

/-- `sh` (R118, R119, R120). -/
def normShift (F : Format) (x : BitVec F.w) : Nat :=
  match classify F x with
  | .subnormal => subnormalShift F (mantField F x)
  | .normal => 0
  | .zero => 0
  | .inf => 0
  | .nan => 0

/-- `nexp` (R118, R119, R120). A subnormal starts at `1 - BIAS`, and each shift takes one off. -/
def normExp (F : Format) (x : BitVec F.w) : Int :=
  match classify F x with
  | .subnormal => 1 - (bias F : Int) - normShift F x
  | .normal => trueExp F x
  | .zero => trueExp F x
  | .inf => trueExp F x
  | .nan => trueExp F x

/-- `sig` (R118, R119, R120). -/
def significand (F : Format) (x : BitVec F.w) : BitVec (F.mw + 1) :=
  match classify F x with
  | .subnormal => (mantField F x).setWidth (F.mw + 1) <<< normShift F x
  | .normal => BitVec.ofNat (F.mw + 1) (implicitBit F) ||| (mantField F x).setWidth (F.mw + 1)
  | .zero => (mantField F x).setWidth (F.mw + 1)
  | .inf => (mantField F x).setWidth (F.mw + 1)
  | .nan => (mantField F x).setWidth (F.mw + 1)

/-- `DEC.F(x)`, total on every pattern (R110, R124). -/
def decompose (F : Format) (x : BitVec F.w) : DecRecord F where
  sign := signField F x
  efield := expField F x
  mfield := mantField F x
  cls := classify F x
  uexp := trueExp F x
  sh := normShift F x
  nexp := normExp F x
  sig := significand F x

/-- `DEC.S` (R121). -/
def execDecS (x : BitVec 32) (s : State) : Host.Outcome State Fault Refusal :=
  respond (.decS (decompose fmtS x)) s

/-- `DEC.D` (R122). -/
def execDecD (x : BitVec 64) (s : State) : Host.Outcome State Fault Refusal :=
  respond (.decD (decompose fmtD x)) s

end Sys2Proof.Machine
end

