-- ==== Sys2Proof/Machine/Nan.lean ====
section
/-!
DEFINITION. The NaN results: the constraint on the open parameters, the block's own instance of them, and the
reference configuration. Spec: 00_scope.md R8; 42_sqrt_algorithm.md R142(c), R143; 92_eei_decisions.md D5.
-/

namespace Sys2Proof.Machine

/-- A NaN pattern: class `NAN` of R116 (R8). -/
def isNan (F : Format) (x : BitVec F.w) : Bool := classify F x == .nan

/-- An invalid operand of the square root: -infinity, or negative, finite and nonzero (R143). -/
def isInvalid (F : Format) (x : BitVec F.w) : Bool :=
  signField F x == 1#1 &&
    match classify F x with
    | .inf => true
    | .subnormal => true
    | .normal => true
    | .zero => false
    | .nan => false

/-- The constraint every instance of the open parameters must meet (the table of R8). -/
def NanOk {F : Format} (c : NanConfig F) : Prop :=
  (∀ x, isNan F x = true → isNan F (c.prop x) = true) ∧
    (∀ x, isInvalid F x = true → isNan F (c.inv x) = true)

/-- The NaN pattern of format F with the sign and the mantissa field a free choice names: the stored exponent
is all ones, the mantissa field is the choice plus one. -/
def nanOf (F : Format) (choice : BitVec 1 × Fin (2 ^ F.mw - 1)) : BitVec F.w :=
  pack F choice.1 (BitVec.ofNat F.ew (emaxField F)) (BitVec.ofNat F.mw (choice.2.val + 1))

/-- The block's NANPROP_S and NANINV_S: open (R8; log entry 1). -/
def blockNanS : NanConfig fmtS where
  prop x := nanOf fmtS (Config.nanPropS x)
  inv x := nanOf fmtS (Config.nanInvS x)

/-- The block's NANPROP_D and NANINV_D: open (R8; log entry 1). -/
def blockNanD : NanConfig fmtD where
  prop x := nanOf fmtD (Config.nanPropD x)
  inv x := nanOf fmtD (Config.nanInvD x)

/-- REFCFG of D5, which the spec's test vectors print and no rule uses: a NaN keeps its bits and gets mantissa
bit `MW-1` set; an invalid operand gives `EXP_MASK OR (1 << (MW-1))`. The machine does not use it. -/
def refCfg (F : Format) : NanConfig F where
  prop x := x ||| BitVec.ofNat F.w (1 <<< (F.mw - 1))
  inv _ := expMask F ||| BitVec.ofNat F.w (1 <<< (F.mw - 1))

end Sys2Proof.Machine
end

