-- ==== Sys2Proof/Machine/Sqrt.lean ====
section
/-!
DEFINITION. The square-root engines, and the operations `SQRT.S` and `SQRT.D`. Spec: 42_sqrt_algorithm.md R140
to R158; 43_sqrt_s.md R180; 44_sqrt_d.md R190.

Written once over the format. The working values are unbounded naturals: none of them wraps (R92, R154;
log entry 9).
-/

namespace Sys2Proof.Machine

/-- The working values of the digit recurrence (R144). They live inside one operation and are not state (R25). -/
structure Work where
  /-- the remainder -/
  ix : Nat
  /-- twice the partial root -/
  s : Nat
  /-- the partial root, guard bit included -/
  q : Nat
  /-- the trial bit -/
  r : Nat
  deriving DecidableEq, Repr

/-- Doubling the significand of an odd exponent (R146). -/
def paritySig (sig : Nat) (m : Int) : Nat := if m % 2 = 1 then sig <<< 1 else sig

/-- `h = m >>a 1`, the floor of `m / 2` (R146). -/
def halfExp (m : Int) : Int := m / 2

/-- The start of the recurrence (R147). -/
def workStart (F : Format) (sig2 : Nat) : Work :=
  { ix := sig2 <<< 1, s := 0, q := 0, r := firstTrial F }

/-- One iteration (R148): `t = s + r` is tried against the remainder. -/
def workStep (k : Work) : Work :=
  if k.s + k.r ≤ k.ix then
    { ix := (k.ix - (k.s + k.r)) <<< 1, s := k.s + k.r + k.r, q := k.q + k.r, r := k.r >>> 1 }
  else
    { ix := k.ix <<< 1, s := k.s, q := k.q, r := k.r >>> 1 }

/-- The working values after `n` iterations from `k`. -/
def workRun (k : Work) : Nat → Work
  | 0 => k
  | n + 1 => workStep (workRun k n)

/-- Rounding (R150): with a remainder left, the guard bit is added to the root. -/
def roundRoot (k : Work) : Nat := if k.ix ≠ 0 then k.q + (k.q &&& 1) else k.q

/-- The working values of case 6 when the loop ends: `NITER` iterations from the normalised operand
(R145 to R148). -/
def rootWork (F : Format) (x : BitVec F.w) : Work :=
  workRun (workStart F (paritySig (significand F x).toNat (normExp F x))) (niter F)

/-- The result of case 6: round, shift the guard bit out, re-bias the halved exponent, pack (R150, R151). -/
def roundedRoot (F : Format) (x : BitVec F.w) : BitVec F.w :=
  pack F 0#1 (BitVec.ofInt F.ew (halfExp (normExp F x) + bias F))
    (BitVec.ofNat F.mw (roundRoot (rootWork F x) >>> 1))

/-- `SQRT.F(x)`: the six cases of R140, by class and sign. -/
def sqrt (F : Format) (c : NanConfig F) (x : BitVec F.w) : BitVec F.w :=
  match classify F x, (signField F x == 1#1 : Bool) with
  | .nan, _ => c.prop x
  | .inf, false => x
  | .inf, true => c.inv x
  | .zero, _ => x
  | .subnormal, true => c.inv x
  | .normal, true => c.inv x
  | .subnormal, false => roundedRoot F x
  | .normal, false => roundedRoot F x

/-- `SQRT.S` (R180), with the block's NaN parameters. -/
def execSqrtS (x : BitVec 32) (s : State) : Host.Outcome State Fault Refusal :=
  respond (.sqrtS (sqrt fmtS blockNanS x)) s

/-- `SQRT.D` (R190), with the block's NaN parameters. -/
def execSqrtD (x : BitVec 64) (s : State) : Host.Outcome State Fault Refusal :=
  respond (.sqrtD (sqrt fmtD blockNanD x)) s

end Sys2Proof.Machine
end

