-- ==== Sys2Proof/Machine/Dispatch.lean ====
section
/-! DEFINITION. One arm per instruction. Spec: 30_encoding.md R64. -/

namespace Sys2Proof.Machine

def exec (i : Instr) (s : State) : Host.Outcome State Fault Refusal :=
  match i with
  | .sqrtS x => Sys2Proof.Machine.execSqrtS x s
  | .sqrtD x => Sys2Proof.Machine.execSqrtD x s
  | .decS x => Sys2Proof.Machine.execDecS x s
  | .decD x => Sys2Proof.Machine.execDecD x s

end Sys2Proof.Machine
end

