-- ==== Sys2Proof/Machine/Step.lean ====
section
/-!
DEFINITION. One step: the block answers its next request. Spec: 30_encoding.md R60; 10_state.md R22.

There is no program counter and no fetch (R22): the host starts each operation by presenting a request, and
one operation is one step, since its working values cannot be seen from outside (R25).
-/

namespace Sys2Proof.Machine

/-- Take the oldest request, decode it, perform it; with no request outstanding, do nothing. -/
def step (s : State) : Host.Outcome State Fault Refusal :=
  match takeRequest s with
  | none => idle s
  | some (r, s') => exec (decode r) s'

/-- `s` with the request of a table word presented as the block's next one. -/
def State.withFetchWord (s : State) (nbits w : Nat) : State :=
  s.withNextRequest (requestOfTableWord nbits w)

end Sys2Proof.Machine
end

