-- ==== Sys2Proof/Machine/Value.lean ====
section
/-!
DEFINITION. What a pattern means as a number. Spec: 40_formats_constants.md R88; 00_scope.md section 5.1.

A value is never a machine object: no operation computes one. It is the vocabulary in which the numeric
contract of the square root is stated (R152).
-/

namespace Sys2Proof.Machine

/-- The value of a pattern (R88). `neg` is the sign of a zero or an infinity. -/
inductive FpValue where
  | zero (neg : Bool)
  | finite (v : ℚ)
  | inf (neg : Bool)
  | nan
  deriving DecidableEq, Repr

/-- `(-1)^sign`. -/
def signFactor (s : BitVec 1) : ℚ := if s = 1#1 then -1 else 1

/-- The value of a pattern, by class (the table of R88). -/
def valueOf (F : Format) (x : BitVec F.w) : FpValue :=
  match classify F x with
  | .zero => .zero (signField F x == 1#1)
  | .subnormal =>
    .finite (signFactor (signField F x) * ((mantField F x).toNat / 2 ^ F.mw) * 2 ^ (1 - (bias F : Int)))
  | .normal =>
    .finite (signFactor (signField F x) * (1 + (mantField F x).toNat / 2 ^ F.mw) *
      2 ^ (((expField F x).toNat : Int) - bias F))
  | .inf => .inf (signField F x == 1#1)
  | .nan => .nan

/-- The number a value is, for the finite ones; both zeros are the number 0. -/
def FpValue.rat? : FpValue → Option ℚ
  | .zero _ => some 0
  | .finite v => some v
  | .inf _ => none
  | .nan => none

end Sys2Proof.Machine
end

