-- ==== Sys2Proof/Safety.lean ====
section
/-!
DEFINITION. The terms claims are stated in: what a request is answered with, what a run gives, and what every
response satisfies. Spec: 20_memory.md R46; 41_decomposer.md R110, R123; 42_sqrt_algorithm.md R152, R153, R156;
60_exceptions.md R200 to R203.
-/

namespace Sys2Proof.Machine

/-- The response to an instruction, a function of the instruction alone (R46): the `exec : cfg -> Op ->
Operand -> Result` of 10_state.md section 3, at the block's configuration. -/
def answer : Instr → Response
  | .sqrtS x => .sqrtS (sqrt fmtS blockNanS x)
  | .sqrtD x => .sqrtD (sqrt fmtD blockNanD x)
  | .decS x => .decS (decompose fmtS x)
  | .decD x => .decD (decompose fmtD x)

/-- A step goes on (R200, R202, R203). -/
def Goes (o : Host.Outcome State Fault Refusal) : Prop := ∃ s, o = .next s

/-- A result of `SQRT.F` as R156 allows it: never subnormal, +infinity if infinite, and if normal then
positive with its stored exponent between those of the roots of the smallest and the largest operand. -/
def RootOk (F : Format) (y : BitVec F.w) : Prop :=
  classify F y ≠ .subnormal ∧
  (classify F y = .inf → signField F y = 0#1) ∧
  (classify F y = .normal → signField F y = 0#1 ∧
    halfExp (1 - bias F - F.mw) + bias F ≤ (expField F y).toNat ∧
    ((expField F y).toNat : Int) ≤ halfExp (bias F) + bias F)

/-- A record of `DEC.F`: it is the decomposition of the pattern its own fields pack to (R123(a)), and its
numbers lie in the ranges of R110. -/
def RecordOk (F : Format) (d : DecRecord F) : Prop :=
  decompose F (pack F d.sign d.efield d.mfield) = d ∧
  expDenorm F ≤ d.uexp ∧ d.uexp ≤ expNanInf F ∧
  d.sh ≤ F.mw ∧
  1 - (bias F : Int) - F.mw ≤ d.nexp ∧ d.nexp ≤ expNanInf F

/-- What R153 (a) to (e) say of the loop and the rounding: `w` is what the loop leaves on a start `sig2`, `N` the
radicand, `Q` the kept bits. The field names follow the parts of the rule. -/
structure RoundsToNearest (F : Format) (sig2 N : Nat) (w : Work) (Q : Nat) : Prop where
  radicand : N = sig2 * 2 ^ (F.mw + 2)
  a_root : w.q = Nat.sqrt N
  a_remainder : w.ix = 2 * (N - w.q ^ 2)
  b_four_dvd : 4 ∣ N
  b_square_even : N = w.q ^ 2 → w.q % 2 = 0
  b_exact_guard : w.ix = 0 → w.q % 2 = 0
  c_start : sig2 ≤ 2 ^ (F.mw + 2) - 2
  c_radicand : N ≤ 2 ^ (2 * F.mw + 4) - 2 ^ (F.mw + 3)
  c_below_square : 2 ^ (2 * F.mw + 4) - 2 ^ (F.mw + 3) < (2 ^ (F.mw + 2) - 1) ^ 2
  c_root_le : w.q ≤ 2 ^ (F.mw + 2) - 2
  c_rounded_le : roundRoot w ≤ 2 ^ (F.mw + 2) - 2
  c_kept : Q = roundRoot w >>> 1
  c_kept_le : Q ≤ 2 ^ (F.mw + 1) - 1
  c_root_ge : 2 ^ (F.mw + 1) ≤ w.q
  c_kept_ge : 2 ^ F.mw ≤ Q
  d_no_tie : ∀ j : Int, Real.sqrt N / 2 ≠ j + 1 / 2
  e_even : ∀ k : Nat, w.q = 2 * k → k ≤ Real.sqrt N / 2 ∧ Real.sqrt N / 2 < k + 1 / 2 ∧ Q = k
  e_odd : ∀ k : Nat, w.q = 2 * k + 1 →
    N ≠ w.q ^ 2 ∧ k + 1 / 2 < Real.sqrt N / 2 ∧ Real.sqrt N / 2 < k + 1 ∧ w.ix ≠ 0 ∧ Q = k + 1
  nearest : ∀ j : Int, j ≠ Q → |(Q : ℝ) - Real.sqrt N / 2| < |(j : ℝ) - Real.sqrt N / 2|

/-- What R152 and R153(f) say of a pattern `y` as the root of `x`: its sign is 0, its value is `Q * 2^(h - MW)`, and
no other representable number is as near to the real root of the value of `x`. -/
def IsNearestRoot (F : Format) (x y : BitVec F.w) (Q : Nat) : Prop :=
  ∃ v u : ℚ, valueOf F x = .finite v ∧ 0 < v ∧ valueOf F y = .finite u ∧ signField F y = 0#1 ∧
    u = (Q : ℚ) * 2 ^ (halfExp (normExp F x) - (F.mw : Int)) ∧
    ∀ (z : BitVec F.w) (t : ℚ), (valueOf F z).rat? = some t → t ≠ u →
      |(u : ℝ) - Real.sqrt v| < |(t : ℝ) - Real.sqrt v|

/-- What every response satisfies. -/
def Response.Ok : Response → Prop
  | .sqrtS y => RootOk fmtS y
  | .sqrtD y => RootOk fmtD y
  | .decS d => RecordOk fmtS d
  | .decD d => RecordOk fmtD d

/-- The invariant: every response given is one the rules allow. -/
def State.Inv (s : State) : Prop := ∀ y ∈ s.responses, y.Ok

end Sys2Proof.Machine
end

