-- ==== Sys2Proof/Machine/Listing.lean ====
section
/-!
DEFINITION. A line of a listing: printing it, reading it, and what its operand stands for. Spec: 30_encoding.md
R67, R68; 95_test_vectors.md part 3.

A line is `<dst> = <MNEMONIC> <operand>`. The names are the host's (R67): what they stand for is held in a `Names`,
which is the host's record of the responses it received and no state of the block (10_state.md R20, R22).
-/

namespace Sys2Proof.Machine

/-! ### Patterns -/

/-- One hexadecimal digit. -/
def hexDigit (n : Nat) : Char := Char.ofNat (if n < 10 then 48 + n else 55 + n)

/-- The low `count` hexadecimal digits of `v`, most significant first. -/
def hexDigits : Nat → Nat → List Char
  | 0, _ => []
  | count + 1, v => hexDigits count (v / 16) ++ [hexDigit (v % 16)]

/-- The value of a hexadecimal digit; the rule does not say in which case a digit is written, so both are
read (log entry 11). -/
def readDigit (c : Char) : Option Nat :=
  let n := c.toNat
  if 48 ≤ n ∧ n ≤ 57 then some (n - 48)
  else if 65 ≤ n ∧ n ≤ 70 then some (n - 55)
  else if 97 ≤ n ∧ n ≤ 102 then some (n - 87)
  else none

/-- The value of a string of digits read onto the digits already seen. -/
def readDigits : Nat → List Char → Option Nat
  | acc, [] => some acc
  | acc, c :: cs => (readDigit c).bind fun d => readDigits (16 * acc + d) cs

/-! ### Names and fields -/

/-- A host-side name (`t0`, `t1`, ...). -/
abbrev Name := List Char

def isLetter (c : Char) : Bool :=
  (65 ≤ c.toNat && c.toNat ≤ 90) || (97 ≤ c.toNat && c.toNat ≤ 122)

def isDecimal (c : Char) : Bool := 48 ≤ c.toNat && c.toNat ≤ 57

/-- A name is a letter, then letters and digits (log entry 11). -/
def isName : Name → Bool
  | [] => false
  | c :: cs => isLetter c && cs.all fun d => isLetter d || isDecimal d

/-- The eight fields of a `DEC` record (R110). -/
inductive Field where
  | sign
  | efield
  | mfield
  | cls
  | uexp
  | sh
  | nexp
  | sig
  deriving DecidableEq, Repr

/-- The field's name, as R110 has it. -/
def Field.print : Field → List Char
  | .sign => ['s', 'i', 'g', 'n']
  | .efield => ['e', 'f', 'i', 'e', 'l', 'd']
  | .mfield => ['m', 'f', 'i', 'e', 'l', 'd']
  | .cls => ['c', 'l', 's']
  | .uexp => ['u', 'e', 'x', 'p']
  | .sh => ['s', 'h']
  | .nexp => ['n', 'e', 'x', 'p']
  | .sig => ['s', 'i', 'g']

def readField (cs : List Char) : Option Field :=
  [Field.sign, .efield, .mfield, .cls, .uexp, .sh, .nexp, .sig].find? fun f => f.print == cs

/-! ### Operands -/

/-- The three forms of `<operand>` (R67). -/
inductive Source where
  /-- `0x` and `count` hexadecimal digits of value `v` -/
  | pattern (count v : Nat)
  /-- `<name>`, an earlier `<dst>` -/
  | name (n : Name)
  /-- `<name>.<field>`, a field of an earlier `DEC` record -/
  | field (n : Name) (f : Field)
  deriving DecidableEq, Repr

/-- A source that can be written down: its value fits its digits, its name is a name. -/
def Source.wellFormed : Source → Bool
  | .pattern count v => v < 16 ^ count
  | .name n => isName n
  | .field n _ => isName n

def Source.print : Source → List Char
  | .pattern count v => '0' :: 'x' :: hexDigits count v
  | .name n => n
  | .field n f => n ++ '.' :: f.print

/-- Reading a name, or a name and a field. -/
def readNamed (cs : List Char) : Option Source :=
  let n := cs.takeWhile fun c => c != '.'
  if isName n then
    match cs.dropWhile fun c => c != '.' with
    | [] => some (.name n)
    | _ :: f => (readField f).map (.field n)
  else none

def readSource (cs : List Char) : Option Source :=
  if cs.take 2 = ['0', 'x'] then (readDigits 0 (cs.drop 2)).map (.pattern (cs.length - 2))
  else readNamed cs

/-! ### What an operand stands for -/

/-- What the host's names stand for, the latest line first. -/
abbrev Names := List (Name × Response)

/-- The width of the operations whose operand a response can be: its own format's (R67: "of the same width"). -/
def Response.width : Response → Nat
  | .sqrtS _ => 32
  | .sqrtD _ => 64
  | .decS _ => 32
  | .decD _ => 64

/-- A response as an operand of `w` bits: a result of that width. A record is no pattern. -/
def Response.word (w : Nat) : Response → Option (BitVec w)
  | .sqrtS y => if w = 32 then some (y.setWidth w) else none
  | .sqrtD y => if w = 64 then some (y.setWidth w) else none
  | .decS _ => none
  | .decD _ => none

/-- The number a field of a record is; the class is its code on wires (R110, R117). -/
def fieldNumber {F : Format} (d : DecRecord F) : Field → Int
  | .sign => d.sign.toNat
  | .efield => d.efield.toNat
  | .mfield => d.mfield.toNat
  | .cls => d.cls.code.toNat
  | .uexp => d.uexp
  | .sh => d.sh
  | .nexp => d.nexp
  | .sig => d.sig.toNat

/-- The width of a field (the table of R110). -/
def fieldWidth (F : Format) : Field → Nat
  | .sign => 1
  | .efield => F.ew
  | .mfield => F.mw
  | .cls => 3
  | .uexp => F.ew + 1
  | .sh => F.mw.log2 + 1
  | .nexp => F.ew + 1
  | .sig => F.mw + 1

/-- A field as an operand of `w` bits: the pattern that spells its number. No pattern spells a negative number
(00_scope.md section 5.1), and for one the spec does not say which pattern is presented: it is free (log entry 13).
A field wider than the operand is none. -/
def fieldOperand {F : Format} (w : Nat) (d : DecRecord F) (f : Field) : Option (BitVec w) :=
  if w < fieldWidth F f then none
  else if fieldNumber d f < 0 then some (Config.negativeFieldBits w (fieldNumber d f))
  else some (BitVec.ofNat w (fieldNumber d f).toNat)

/-- A field of a response that is a record. -/
def Response.field (w : Nat) (f : Field) : Response → Option (BitVec w)
  | .sqrtS _ => none
  | .sqrtD _ => none
  | .decS d => fieldOperand w d f
  | .decD d => fieldOperand w d f

/-- The operand of `w` bits that a source stands for: a pattern of exactly `w/4` digits, or what the name was given
to (R67). -/
def Source.operand (names : Names) (w : Nat) : Source → Option (BitVec w)
  | .pattern count v => if count = w / 4 then some (BitVec.ofNat w v) else none
  | .name n => (names.lookup n).bind (Response.word w)
  | .field n f => (names.lookup n).bind (Response.field w f)

/-- The width a source has of itself, by which the generic name `sqrt` is read (R68). -/
def Source.width (names : Names) : Source → Option Nat
  | .pattern count _ => some (4 * count)
  | .name n => (names.lookup n).map Response.width
  | .field n _ => (names.lookup n).map Response.width

/-! ### Mnemonics -/

/-- The mnemonic of a code (R64), in capitals (R67). -/
def mnemonicOf (op : OpCode) : List Char :=
  match opUnit op, opFmt op with
  | false, false => ['S', 'Q', 'R', 'T', '.', 'S']
  | false, true => ['S', 'Q', 'R', 'T', '.', 'D']
  | true, false => ['D', 'E', 'C', '.', 'S']
  | true, true => ['D', 'E', 'C', '.', 'D']

/-- The code a line's operation name stands for. `sqrt_f32` and `sqrt_f64` are aliases of `SQRT.S` and `SQRT.D`, and
`sqrt` means the one or the other by the width of the operand (R68). -/
def readOp (names : Names) (src : Source) (name : List Char) : Option OpCode :=
  if name = mnemonicOf 0b00#2 ∨ name = ['s', 'q', 'r', 't', '_', 'f', '3', '2'] then some 0b00#2
  else if name = mnemonicOf 0b01#2 ∨ name = ['s', 'q', 'r', 't', '_', 'f', '6', '4'] then some 0b01#2
  else if name = mnemonicOf 0b10#2 then some 0b10#2
  else if name = mnemonicOf 0b11#2 then some 0b11#2
  else if name = ['s', 'q', 'r', 't'] then
    if src.width names = some 32 then some 0b00#2
    else if src.width names = some 64 then some 0b01#2
    else none
  else none

/-! ### Lines -/

/-- A line of a listing (R67). -/
structure Line where
  /-- the host's name for the result -/
  dst : Name
  /-- the operation -/
  op : OpCode
  /-- the operand as written -/
  src : Source
  deriving DecidableEq, Repr

def Line.wellFormed (l : Line) : Bool := isName l.dst && l.src.wellFormed

/-- `<dst> = <MNEMONIC> <operand>`. -/
def Line.print (l : Line) : List Char :=
  l.dst ++ ' ' :: '=' :: ' ' :: (mnemonicOf l.op ++ ' ' :: l.src.print)

/-- A text parted at its blanks. -/
def partBlanks : List Char → List (List Char)
  | [] => [[]]
  | c :: cs =>
    match partBlanks cs with
    | [] => [[c]]
    | w :: ws => if c = ' ' then [] :: w :: ws else (c :: w) :: ws

/-- The words of a line, without its comment: "a decimal literal such as `2.0` may be written in a comment beside a
pattern"; a semicolon begins one, as in 95_test_vectors.md part 3. -/
def words (cs : List Char) : List (List Char) :=
  (partBlanks (cs.takeWhile fun c => c != ';')).filter fun w => w != []

/-- Reading a line, where `names` says what the earlier names stand for. -/
def readLine (names : Names) (cs : List Char) : Option Line :=
  match words cs with
  | [dst, eq, name, operand] =>
    if isName dst ∧ eq = ['='] then
      (readSource operand).bind fun src => (readOp names src name).map fun op => { dst, op, src }
    else none
  | _ => none

/-- The request of an operation on a source: "The encoding of a line is its 2-bit `op` followed by its operand". -/
def requestOf (names : Names) (op : OpCode) (src : Source) : Option Request :=
  if opFmt op then (src.operand names 64).map fun x => { op := op, a := x }
  else (src.operand names 32).map fun x => { op := op, a := busOfS x }

/-- The request a line makes. -/
def Line.request (names : Names) (l : Line) : Option Request := requestOf names l.op l.src

/-- What the host knows once the line's request is answered: `<dst>` names the response. -/
def Line.perform (names : Names) (l : Line) : Option Names :=
  (l.request names).map fun r => (l.dst, answer (decode r)) :: names

/-- The names after a list of lines, each read and performed in turn. -/
def performListing : Names → List (List Char) → Option Names
  | names, [] => some names
  | names, text :: rest =>
    (readLine names text).bind fun l => (l.perform names).bind fun names' => performListing names' rest

/-! ### The line of an instruction -/

/-- A pattern as an operand: `0x` and exactly `W/4` digits (R67). -/
def printOperand {w : Nat} (x : BitVec w) : List Char := (Source.pattern (w / 4) x.toNat).print

/-- The mnemonic of an instruction (R64). -/
def mnemonic (i : Instr) : List Char := mnemonicOf (encode i).op

/-- The operand of an instruction, written as a pattern. -/
def sourceOf : Instr → Source
  | .sqrtS x => .pattern (32 / 4) x.toNat
  | .sqrtD x => .pattern (64 / 4) x.toNat
  | .decS x => .pattern (32 / 4) x.toNat
  | .decD x => .pattern (64 / 4) x.toNat

def operandText (i : Instr) : List Char := (sourceOf i).print

/-- The line that asks for an instruction and names its result. -/
def lineOf (dst : Name) (i : Instr) : Line := { dst := dst, op := (encode i).op, src := sourceOf i }

/-- The text of that line (R67). -/
def listing (dst : Name) (i : Instr) : List Char := (lineOf dst i).print

/-- Reading an operation name and an operand of a line. -/
def assemble (names : Names) (name operand : List Char) : Option Instr :=
  (readSource operand).bind fun src =>
    (readOp names src name).bind fun op => (requestOf names op src).map decode

end Sys2Proof.Machine
end

