-- ==== Sys2Proof/Machine/Reference.lean ====
section
/-!
DEFINITION. The four operation rules the opcode table points at, transcribed line by line with their own
constants. Spec: 41_decomposer.md R121, R122; 43_sqrt_s.md R180; 44_sqrt_d.md R190; 42_sqrt_algorithm.md R157.

The machine does not run these: its meanings are the generic ones of Decompose.lean and Sqrt.lean. They are a
second reading of the spec, which the obligations hold the meanings against. The square roots here keep their
working values in `W`-bit unsigned registers, whose arithmetic wraps, and test the cases in the order of R157.
-/

namespace Sys2Proof.Machine

/-- `DEC.S`, the pseudocode of R121. -/
def ruleR121 (x : BitVec 32) : DecRecord fmtS :=
  let sign := x.extractLsb' 31 1
  let efield := x.extractLsb' 23 8
  let mfield := x.extractLsb' 0 23
  let uexp : Int := efield.toNat - 127
  let cls : Cls :=
    if efield = 255#8 then (if mfield = 0#23 then .inf else .nan)
    else if efield = 0#8 then (if mfield = 0#23 then .zero else .subnormal)
    else .normal
  if cls = .subnormal then
    let sh := clz (mfield.setWidth 32) - 8
    { sign, efield, mfield, cls, uexp, sh, sig := mfield.setWidth 24 <<< sh, nexp := -126 - sh }
  else if cls = .normal then
    { sign, efield, mfield, cls, uexp, sh := 0, sig := 0x800000#24 ||| mfield.setWidth 24, nexp := uexp }
  else
    { sign, efield, mfield, cls, uexp, sh := 0, sig := mfield.setWidth 24, nexp := uexp }

/-- `DEC.D`, the pseudocode of R122. -/
def ruleR122 (x : BitVec 64) : DecRecord fmtD :=
  let sign := x.extractLsb' 63 1
  let efield := x.extractLsb' 52 11
  let mfield := x.extractLsb' 0 52
  let uexp : Int := efield.toNat - 1023
  let cls : Cls :=
    if efield = 2047#11 then (if mfield = 0#52 then .inf else .nan)
    else if efield = 0#11 then (if mfield = 0#52 then .zero else .subnormal)
    else .normal
  if cls = .subnormal then
    let sh := clz (mfield.setWidth 64) - 11
    { sign, efield, mfield, cls, uexp, sh, sig := mfield.setWidth 53 <<< sh, nexp := -1022 - sh }
  else if cls = .normal then
    { sign, efield, mfield, cls, uexp, sh := 0, sig := 0x10000000000000#53 ||| mfield.setWidth 53,
      nexp := uexp }
  else
    { sign, efield, mfield, cls, uexp, sh := 0, sig := mfield.setWidth 53, nexp := uexp }

/-- The working registers of an engine, `n` bits each. -/
structure Regs (n : Nat) where
  ix : BitVec n
  s : BitVec n
  q : BitVec n
  r : BitVec n
  deriving DecidableEq, Repr

/-- The body of the `repeat` of R180 and R190, on `n`-bit registers. -/
def regsStep {n : Nat} (k : Regs n) : Regs n :=
  let t := k.s + k.r
  if t ≤ k.ix then
    { s := t + k.r, ix := (k.ix - t) <<< 1, q := k.q + k.r, r := k.r >>> 1 }
  else
    { s := k.s, ix := k.ix <<< 1, q := k.q, r := k.r >>> 1 }

/-- `repeat count times`. -/
def regsRepeat {n : Nat} (k : Regs n) : Nat → Regs n
  | 0 => k
  | count + 1 => regsStep (regsRepeat k count)

/-- `SQRT.S`, the pseudocode of R180, with 32-bit registers. -/
def ruleR180 (c : NanConfig fmtS) (x : BitVec 32) : BitVec 32 :=
  let sign := x.extractLsb' 31 1
  let e := x.extractLsb' 23 8
  let f := x.extractLsb' 0 23
  if e = 255#8 then
    if f ≠ 0#23 then c.prop x
    else if sign = 0#1 then x
    else c.inv x
  else if e = 0#8 ∧ f = 0#23 then x
  else if sign = 1#1 then c.inv x
  else
    let sh := clz x - 8
    let sig : BitVec 32 := if e = 0#8 then f.setWidth 32 <<< sh else 0x00800000#32 ||| f.setWidth 32
    let m : Int := if e = 0#8 then -126 - sh else e.toNat - 127
    let sig2 := if m % 2 = 1 then sig <<< 1 else sig
    let h := m / 2
    let k := regsRepeat { ix := sig2 <<< 1, q := 0#32, s := 0#32, r := 0x01000000#32 } 25
    let q := if k.ix ≠ 0#32 then k.q + (k.q &&& 1#32) else k.q
    (q >>> 1) + (BitVec.ofInt 32 (h + 126) <<< 23)

/-- `SQRT.D`, the pseudocode of R190, with 64-bit registers. -/
def ruleR190 (c : NanConfig fmtD) (x : BitVec 64) : BitVec 64 :=
  let sign := x.extractLsb' 63 1
  let e := x.extractLsb' 52 11
  let f := x.extractLsb' 0 52
  if e = 2047#11 then
    if f ≠ 0#52 then c.prop x
    else if sign = 0#1 then x
    else c.inv x
  else if e = 0#11 ∧ f = 0#52 then x
  else if sign = 1#1 then c.inv x
  else
    let sh := clz x - 11
    let sig : BitVec 64 :=
      if e = 0#11 then f.setWidth 64 <<< sh else 0x0010000000000000#64 ||| f.setWidth 64
    let m : Int := if e = 0#11 then -1022 - sh else e.toNat - 1023
    let sig2 := if m % 2 = 1 then sig <<< 1 else sig
    let h := m / 2
    let k := regsRepeat { ix := sig2 <<< 1, q := 0#64, s := 0#64, r := 0x0020000000000000#64 } 54
    let q := if k.ix ≠ 0#64 then k.q + (k.q &&& 1#64) else k.q
    (q >>> 1) + (BitVec.ofInt 64 (h + 1022) <<< 52)

end Sys2Proof.Machine
end

