-- ==== Sys2Proof/Certificates/Slice0/Obligations.lean ====
section
/-!
DEFINITION. The statements for the provers, in the order of the spec's files.

The block has no register, flag, program counter, special register or memory (10_state.md R20 to R26), so a
frame here says that an instruction appends its one response and touches nothing else of the transaction.
-/

open Sys2Proof Sys2Proof.Machine

/-! ### Formats and constants -/

/-- R5 and R6: the parameters of both formats have the values of R5's table, and they agree as R6 says. -/
def Obligations.FormatParametersHaveTheirValues : Prop :=
  (fmtS.w = 32 ∧ fmtS.ew = 8 ∧ fmtS.mw = 23 ∧ precision fmtS = 24 ∧ bias fmtS = 127 ∧ maxExp fmtS = 127 ∧
    expDenorm fmtS = -127 ∧ expNanInf fmtS = 128 ∧ emaxField fmtS = 255 ∧ niter fmtS = 25) ∧
  (fmtD.w = 64 ∧ fmtD.ew = 11 ∧ fmtD.mw = 52 ∧ precision fmtD = 53 ∧ bias fmtD = 1023 ∧ maxExp fmtD = 1023 ∧
    expDenorm fmtD = -1023 ∧ expNanInf fmtD = 1024 ∧ emaxField fmtD = 2047 ∧ niter fmtD = 54) ∧
  ∀ F : Format, F = fmtS ∨ F = fmtD →
    1 + F.ew + F.mw = F.w ∧ bias F = 2 ^ (F.ew - 1) - 1 ∧ maxExp F = bias F ∧
    expDenorm F = 0 - (bias F : Int) ∧ expNanInf F = (emaxField F : Int) - bias F ∧
    expNanInf F = 2 ^ (F.ew - 1) ∧ expNanInf F = maxExp F + 1 ∧
    precision F = F.mw + 1 ∧ niter F = F.mw + 2

/-- R80 to R83 and R87: the masks, the bias and the implicit-bit constants as numbers. -/
def Obligations.MasksAreTheirNumbers : Prop :=
  (signMask fmtS = 0x80000000#32 ∧ expMask fmtS = 0x7F800000#32 ∧ mantMask fmtS = 0x007FFFFF#32 ∧
    bias fmtS = 127 ∧ implicitBit fmtS = 0x00800000 ∧ firstTrial fmtS = 0x01000000 ∧
    bias fmtS - 1 = 126 ∧ (bias fmtS - 1) <<< fmtS.mw = 0x3F000000) ∧
  (signMask fmtD = 0x8000000000000000#64 ∧ expMask fmtD = 0x7FF0000000000000#64 ∧
    mantMask fmtD = 0x000FFFFFFFFFFFFF#64 ∧ bias fmtD = 1023 ∧
    implicitBit fmtD = 0x0010000000000000 ∧ firstTrial fmtD = 0x0020000000000000 ∧
    bias fmtD - 1 = 1022 ∧ (bias fmtD - 1) <<< fmtD.mw = 0x3FE0000000000000) ∧
  ∀ F : Format, F = fmtS ∨ F = fmtD →
    signMask F = 1#F.w <<< (F.w - 1) ∧
    expMask F = BitVec.ofNat F.w (2 ^ F.ew - 1) <<< F.mw ∧
    mantMask F = BitVec.ofNat F.w (2 ^ F.mw - 1) ∧
    implicitBit F = 1 <<< F.mw ∧ firstTrial F = 1 <<< (F.mw + 1)

/-- R84, R111, R112, R113: where the three fields lie, that each is what its mask covers, and that the masks part
the word. -/
def Obligations.FieldsAreWhatTheMasksCover : Prop :=
  (∀ x : BitVec 32,
    signField fmtS x = x.extractLsb' 31 1 ∧ expField fmtS x = x.extractLsb' 23 8 ∧
    mantField fmtS x = x.extractLsb' 0 23) ∧
  (∀ x : BitVec 64,
    signField fmtD x = x.extractLsb' 63 1 ∧ expField fmtD x = x.extractLsb' 52 11 ∧
    mantField fmtD x = x.extractLsb' 0 52) ∧
  ∀ F : Format, F = fmtS ∨ F = fmtD →
    (∀ x : BitVec F.w,
      (decompose F x).sign = signField F x ∧ (decompose F x).efield = expField F x ∧
      (decompose F x).mfield = mantField F x ∧
      (signField F x = 1#1 ↔ x &&& signMask F ≠ 0#F.w) ∧
      (expField F x).setWidth F.w = (x &&& expMask F) >>> F.mw ∧
      (mantField F x).setWidth F.w = x &&& mantMask F) ∧
    signMask F &&& expMask F = 0#F.w ∧ signMask F &&& mantMask F = 0#F.w ∧
    expMask F &&& mantMask F = 0#F.w ∧
    signMask F ||| expMask F ||| mantMask F = BitVec.allOnes F.w

/-- R91: recomposition is the inverse of the field split, in both directions, and is the word the shifted fields
make. -/
def Obligations.PackIsTheInverseOfTheFieldSplit : Prop :=
  ∀ F : Format,
    (∀ x : BitVec F.w, pack F (signField F x) (expField F x) (mantField F x) = x) ∧
    ∀ (s : BitVec 1) (e : BitVec F.ew) (f : BitVec F.mw),
      signField F (pack F s e f) = s ∧ expField F (pack F s e f) = e ∧ mantField F (pack F s e f) = f ∧
      pack F s e f =
        (s.setWidth F.w <<< (F.w - 1)) ||| (e.setWidth F.w <<< F.mw) ||| f.setWidth F.w

/-- R88: the value of a pattern, row by row of its table, and the smallest positive value of each format. That a
zero mantissa field tells an infinity from a NaN is marked "[from general knowledge, not in source]" by the
spec itself (93_implementation_defined.md G1; log entry 7). -/
def Obligations.ValueFollowsTheClassTable : Prop :=
  (∀ F : Format, F = fmtS ∨ F = fmtD → ∀ x : BitVec F.w,
    let e := (expField F x).toNat
    let f := (mantField F x).toNat
    let sgn : ℚ := if signField F x = 1#1 then -1 else 1
    (e = 0 ∧ f = 0 → valueOf F x = .zero (signField F x == 1#1)) ∧
    (e = 0 ∧ f ≠ 0 → valueOf F x = .finite (sgn * ((f : ℚ) / 2 ^ F.mw) * 2 ^ (1 - (bias F : Int)))) ∧
    (1 ≤ e ∧ e ≤ 2 ^ F.ew - 2 →
      valueOf F x = .finite (sgn * (1 + (f : ℚ) / 2 ^ F.mw) * 2 ^ ((e : Int) - bias F))) ∧
    (e = 2 ^ F.ew - 1 ∧ f = 0 → valueOf F x = .inf (signField F x == 1#1)) ∧
    (e = 2 ^ F.ew - 1 ∧ f ≠ 0 → valueOf F x = .nan)) ∧
  (∀ (x : BitVec 32) (v : ℚ), valueOf fmtS x = .finite v → 0 < v → (2 : ℚ) ^ (-149 : Int) ≤ v) ∧
  (∀ (x : BitVec 64) (v : ℚ), valueOf fmtD x = .finite v → 0 < v → (2 : ℚ) ^ (-1074 : Int) ≤ v) ∧
  valueOf fmtS 1#32 = .finite ((2 : ℚ) ^ (-149 : Int)) ∧
  valueOf fmtD 1#64 = .finite ((2 : ℚ) ^ (-1074 : Int))

/-- R89: the stored exponent of a normalised value is 1 to 254 and 1 to 2046 (`[1, 2*MAX_EXP]`), and its true
exponent is -126 to 127 and -1022 to 1023 (`[1-BIAS, BIAS]`). -/
def Obligations.NormalExponentRange : Prop :=
  (∀ x : BitVec 32, classify fmtS x = .normal ↔
    1 ≤ (expField fmtS x).toNat ∧ (expField fmtS x).toNat ≤ 254) ∧
  (∀ x : BitVec 64, classify fmtD x = .normal ↔
    1 ≤ (expField fmtD x).toNat ∧ (expField fmtD x).toNat ≤ 2046) ∧
  (∀ x : BitVec 32, classify fmtS x = .normal → -126 ≤ trueExp fmtS x ∧ trueExp fmtS x ≤ 127) ∧
  (∀ x : BitVec 64, classify fmtD x = .normal → -1022 ≤ trueExp fmtD x ∧ trueExp fmtD x ≤ 1023) ∧
  ∀ F : Format, F = fmtS ∨ F = fmtD →
    2 ^ F.ew - 2 = 2 * maxExp F ∧
    ∀ x : BitVec F.w, classify F x = .normal →
      1 - (bias F : Int) ≤ trueExp F x ∧ trueExp F x ≤ bias F

/-- R90: on the patterns with sign 0, the order of the values is the order of the patterns as unsigned integers,
with +infinity, `EXP_MASK`, the greatest. -/
def Obligations.ValueOrderIsUnsignedOrder : Prop :=
  ∀ F : Format, F = fmtS ∨ F = fmtD →
    (∀ (x y : BitVec F.w) (u v : ℚ), signField F x = 0#1 → signField F y = 0#1 →
      (valueOf F x).rat? = some u → (valueOf F y).rat? = some v → (u < v ↔ x < y)) ∧
    (∀ x : BitVec F.w, signField F x = 0#1 → (valueOf F x = .inf false ↔ x = expMask F)) ∧
    ∀ (x : BitVec F.w) (u : ℚ), signField F x = 0#1 → (valueOf F x).rat? = some u → x < expMask F

/-! ### The decomposer -/

/-- R116: the class, decided by the stored exponent and the mantissa field alone, never by the sign. The split of
the all-ones patterns is the spec's own, marked "[from general knowledge, not in source]" (G1; log entry 7). -/
def Obligations.ClassIsDecidedByExponentAndMantissa : Prop :=
  ∀ F : Format, F = fmtS ∨ F = fmtD → ∀ x : BitVec F.w,
    let e := (expField F x).toNat
    let f := (mantField F x).toNat
    ((decompose F x).cls = .inf ↔ e = 2 ^ F.ew - 1 ∧ f = 0) ∧
    ((decompose F x).cls = .nan ↔ e = 2 ^ F.ew - 1 ∧ f ≠ 0) ∧
    ((decompose F x).cls = .zero ↔ e = 0 ∧ f = 0) ∧
    ((decompose F x).cls = .subnormal ↔ e = 0 ∧ f ≠ 0) ∧
    ((decompose F x).cls = .normal ↔ e ≠ 2 ^ F.ew - 1 ∧ e ≠ 0) ∧
    ∀ y : BitVec F.w, expField F y = expField F x → mantField F y = mantField F x →
      (decompose F y).cls = (decompose F x).cls

/-- R117: the class codes on wires; 5, 6 and 7 are never produced. -/
def Obligations.ClassCodesOnWires : Prop :=
  Cls.zero.code = 0#3 ∧ Cls.subnormal.code = 1#3 ∧ Cls.normal.code = 2#3 ∧ Cls.inf.code = 3#3 ∧
  Cls.nan.code = 4#3 ∧ ∀ c : Cls, c.code ≠ 5#3 ∧ c.code ≠ 6#3 ∧ c.code ≠ 7#3

/-- R85, R86, R115: the true exponent, and when it is a sentinel. -/
def Obligations.TrueExponentAndItsSentinels : Prop :=
  ∀ F : Format, F = fmtS ∨ F = fmtD →
    expDenorm F = -(bias F : Int) ∧ expNanInf F = maxExp F + 1 ∧
    ∀ x : BitVec F.w,
      (decompose F x).uexp = ((expField F x).toNat : Int) - bias F ∧
      ((decompose F x).uexp = expDenorm F ↔ (expField F x).toNat = 0) ∧
      ((decompose F x).uexp = expNanInf F ↔ (expField F x).toNat = 2 ^ F.ew - 1) ∧
      ((expField F x).toNat ≠ 0 → (expField F x).toNat ≠ 2 ^ F.ew - 1 →
        1 - (bias F : Int) ≤ (decompose F x).uexp ∧ (decompose F x).uexp ≤ bias F)

/-- R110: every field of the record lies in its range. -/
def Obligations.RecordFieldsLieInTheirRanges : Prop :=
  (∀ x : BitVec 32,
    let d := decompose fmtS x
    d.sign.toNat ≤ 1 ∧ d.efield.toNat ≤ 255 ∧ d.mfield.toNat ≤ 2 ^ 23 - 1 ∧
    -127 ≤ d.uexp ∧ d.uexp ≤ 128 ∧ d.sh ≤ 23 ∧ -149 ≤ d.nexp ∧ d.nexp ≤ 128 ∧ d.sig.toNat ≤ 2 ^ 24 - 1) ∧
  (∀ x : BitVec 64,
    let d := decompose fmtD x
    d.sign.toNat ≤ 1 ∧ d.efield.toNat ≤ 2047 ∧ d.mfield.toNat ≤ 2 ^ 52 - 1 ∧
    -1023 ≤ d.uexp ∧ d.uexp ≤ 1024 ∧ d.sh ≤ 52 ∧ -1074 ≤ d.nexp ∧ d.nexp ≤ 1024 ∧
    d.sig.toNat ≤ 2 ^ 53 - 1) ∧
  ∀ F : Format, F = fmtS ∨ F = fmtD → ∀ x : BitVec F.w,
    let d := decompose F x
    d.sh ≤ F.mw ∧ -(bias F : Int) ≤ d.uexp ∧ d.uexp ≤ bias F + 1 ∧
    1 - (bias F : Int) - F.mw ≤ d.nexp ∧ d.nexp ≤ bias F + 1

/-- R118: renormalisation of a subnormal, of either sign. -/
def Obligations.SubnormalIsRenormalised : Prop :=
  ∀ F : Format, F = fmtS ∨ F = fmtD → ∀ x : BitVec F.w, (decompose F x).cls = .subnormal →
    let d := decompose F x
    (d.sh : Int) = (clz (d.mfield.setWidth F.w) : Int) - F.ew ∧ 1 ≤ d.sh ∧ d.sh ≤ F.mw ∧
    d.sig.toNat = d.mfield.toNat * 2 ^ d.sh ∧ 2 ^ F.mw ≤ d.sig.toNat ∧ d.sig.toNat < 2 ^ (F.mw + 1) ∧
    d.nexp = 1 - (bias F : Int) - d.sh ∧ 1 - (bias F : Int) - F.mw ≤ d.nexp ∧ d.nexp ≤ -(bias F : Int) ∧
    ((d.mfield.toNat : ℚ) / 2 ^ F.mw) * 2 ^ (1 - (bias F : Int)) = ((d.sig.toNat : ℚ) / 2 ^ F.mw) * 2 ^ d.nexp ∧
    (signField F x = 0#1 → x = d.mfield.setWidth F.w)

/-- R119: the record of a normalised pattern. -/
def Obligations.NormalGetsItsImplicitBit : Prop :=
  ∀ F : Format, F = fmtS ∨ F = fmtD → ∀ x : BitVec F.w, (decompose F x).cls = .normal →
    let d := decompose F x
    d.sh = 0 ∧ d.nexp = d.uexp ∧ d.uexp = (d.efield.toNat : Int) - bias F ∧
    d.sig = BitVec.ofNat (F.mw + 1) (implicitBit F) ||| d.mfield.setWidth (F.mw + 1) ∧
    d.sig.toNat = 2 ^ F.mw + d.mfield.toNat ∧
    valueOf F x = .finite (signFactor d.sign * ((d.sig.toNat : ℚ) / 2 ^ F.mw) * 2 ^ d.nexp)

/-- R120: the record of a zero, an infinity or a NaN; and where the packed significand gives the pattern back. -/
def Obligations.OtherClassesKeepTheirField : Prop :=
  ∀ F : Format, F = fmtS ∨ F = fmtD → ∀ x : BitVec F.w,
    let d := decompose F x
    (d.cls = .zero ∨ d.cls = .inf ∨ d.cls = .nan →
      d.sh = 0 ∧ d.nexp = d.uexp ∧ d.sig = d.mfield.setWidth (F.mw + 1) ∧
      (d.cls = .zero → d.nexp = expDenorm F ∧ d.sig = 0#(F.mw + 1)) ∧
      (d.cls = .inf → d.nexp = expNanInf F ∧ d.sig = 0#(F.mw + 1)) ∧
      (d.cls = .nan → d.nexp = expNanInf F ∧ d.sig.getLsbD F.mw = false)) ∧
    (pack F d.sign d.efield (d.sig.setWidth F.mw) = x ↔ d.cls ≠ .subnormal)

/-- R121: `DEC.S` completes on every operand and state with the record of its rule, and nothing else changes. The
corner cases and the worked example are the rule's. -/
def Obligations.DecSAnswersWithItsRecord : Prop :=
  (∀ (x : BitVec 32) (s : State),
    exec (.decS x) s = .next (s.answered (.decS (ruleR121 x)))) ∧
  (∀ a : Bus, decode { op := 0b10#2, a := a } = .decS (a.extractLsb' 0 32)) ∧
  (ruleR121 0x00000000#32).cls = .zero ∧ (ruleR121 0x00000000#32).sign = 0#1 ∧
  (ruleR121 0x80000000#32).cls = .zero ∧ (ruleR121 0x80000000#32).sign = 1#1 ∧
  (∀ d, d = ruleR121 0x00000001#32 →
    d.cls = .subnormal ∧ d.sh = 23 ∧ d.sig = 0x800000#24 ∧ d.nexp = -149) ∧
  (∀ d, d = ruleR121 0x007FFFFF#32 →
    d.cls = .subnormal ∧ d.sh = 1 ∧ d.sig = 0xFFFFFE#24 ∧ d.nexp = -127) ∧
  (∀ d, d = ruleR121 0x7F7FFFFF#32 →
    d.cls = .normal ∧ d.efield = 254#8 ∧ d.nexp = 127 ∧ d.sig = 0xFFFFFF#24) ∧
  (∀ x : BitVec 32, (ruleR121 x).cls = .normal → x.toNat % 2 ^ 31 ≤ 0x7F7FFFFF) ∧
  (ruleR121 0x7F800001#32).cls = .nan ∧
  ruleR121 0x41C80000#32 =
    { sign := 0#1, efield := 0x83#8, mfield := 0x480000#23, cls := .normal, uexp := 4, sh := 0, nexp := 4,
      sig := 0xC80000#24 }

/-- R122: `DEC.D` completes on every operand and state with the record of its rule, and nothing else changes. The
corner cases and the worked example are the rule's. -/
def Obligations.DecDAnswersWithItsRecord : Prop :=
  (∀ (x : BitVec 64) (s : State),
    exec (.decD x) s = .next (s.answered (.decD (ruleR122 x)))) ∧
  (∀ a : Bus, decode { op := 0b11#2, a := a } = .decD a) ∧
  (∀ d, d = ruleR122 0x0000000000000001#64 →
    d.cls = .subnormal ∧ d.sh = 52 ∧ d.sig = 0x10000000000000#53 ∧ d.nexp = -1074) ∧
  (∀ d, d = ruleR122 0x000FFFFFFFFFFFFF#64 →
    d.cls = .subnormal ∧ d.sh = 1 ∧ d.sig = 0x1FFFFFFFFFFFFE#53 ∧ d.nexp = -1023) ∧
  (∀ d, d = ruleR122 0x7FEFFFFFFFFFFFFF#64 →
    d.cls = .normal ∧ d.efield = 2046#11 ∧ d.nexp = 1023) ∧
  (∀ x : BitVec 64, (ruleR122 x).cls = .normal → x.toNat % 2 ^ 63 ≤ 0x7FEFFFFFFFFFFFFF) ∧
  ruleR122 0x4039000000000000#64 =
    { sign := 0#1, efield := 0x403#11, mfield := 0x9000000000000#52, cls := .normal, uexp := 4, sh := 0,
      nexp := 4, sig := 0x19000000000000#53 }

/-- R123, which the spec derives from R111 to R120: the laws (a) to (f) of the record. -/
def Obligations.RecordLaws : Prop :=
  ∀ F : Format, F = fmtS ∨ F = fmtD → ∀ x : BitVec F.w,
    let d := decompose F x
    (pack F d.sign d.efield d.mfield = x) ∧
    ((d.cls = .subnormal ∨ d.cls = .normal ↔ ∃ v, valueOf F x = .finite v ∧ v ≠ 0) ∧
      (d.cls = .subnormal ∨ d.cls = .normal →
        2 ^ F.mw ≤ d.sig.toNat ∧ d.sig.toNat < 2 ^ (F.mw + 1) ∧
        valueOf F x =
          .finite ((-1) ^ d.sign.toNat * (d.sig.toNat : ℚ) * 2 ^ (d.nexp - (F.mw : Int))))) ∧
    ((d.sh ≠ 0 ↔ d.cls = .subnormal) ∧
      (d.sh ≠ 0 → d.sig.toNat = d.mfield.toNat <<< d.sh ∧ 2 ^ d.sh ∣ d.sig.toNat)) ∧
    (d.cls = .normal → d.sig.setWidth F.mw = d.mfield ∧ d.nexp = d.uexp) ∧
    ((d.uexp = expDenorm F ↔ d.cls = .zero ∨ d.cls = .subnormal) ∧
      (d.uexp = expNanInf F ↔ d.cls = .inf ∨ d.cls = .nan)) ∧
    (decompose F (x ^^^ signMask F) = { d with sign := ~~~ d.sign })

/-! ### The square root: cases -/

/-- R140: exactly one of six cases, by the class and the sign, for both engines; the result is that of the case,
the operation completes in every state, and nothing else changes. -/
def Obligations.SqrtSelectsOneOfSixCases : Prop :=
  (∀ (x : BitVec 32) (s : State), ∃ y : BitVec 32,
    exec (.sqrtS x) s = .next (s.answered (.sqrtS y)) ∧
    let d := decompose fmtS x
    (d.cls = .nan → y = blockNanS.prop x) ∧
    (d.cls = .inf ∧ d.sign = 0#1 → y = x) ∧
    (d.cls = .inf ∧ d.sign = 1#1 → y = blockNanS.inv x) ∧
    (d.cls = .zero → y = x) ∧
    ((d.cls = .subnormal ∨ d.cls = .normal) ∧ d.sign = 1#1 → y = blockNanS.inv x) ∧
    ((d.cls = .subnormal ∨ d.cls = .normal) ∧ d.sign = 0#1 → y = roundedRoot fmtS x)) ∧
  (∀ (x : BitVec 64) (s : State), ∃ y : BitVec 64,
    exec (.sqrtD x) s = .next (s.answered (.sqrtD y)) ∧
    let d := decompose fmtD x
    (d.cls = .nan → y = blockNanD.prop x) ∧
    (d.cls = .inf ∧ d.sign = 0#1 → y = x) ∧
    (d.cls = .inf ∧ d.sign = 1#1 → y = blockNanD.inv x) ∧
    (d.cls = .zero → y = x) ∧
    ((d.cls = .subnormal ∨ d.cls = .normal) ∧ d.sign = 1#1 → y = blockNanD.inv x) ∧
    ((d.cls = .subnormal ∨ d.cls = .normal) ∧ d.sign = 0#1 → y = roundedRoot fmtD x)) ∧
  ∀ s : BitVec 1, s = 0#1 ∨ s = 1#1

/-- R142: zeros and +infinity are returned bit for bit, and a NaN of either sign gives NANPROP_F of it, a NaN,
under every configuration R8 allows. -/
def Obligations.SqrtPassesZeroInfinityAndNanThrough : Prop :=
  ∀ F : Format, F = fmtS ∨ F = fmtD → ∀ c : NanConfig F, NanOk c →
    (∀ x : BitVec F.w, classify F x = .zero → sqrt F c x = x) ∧
    sqrt F c 0#F.w = 0#F.w ∧ sqrt F c (signMask F) = signMask F ∧
    sqrt F c (expMask F) = expMask F ∧
    (∀ x : BitVec F.w, classify F x = .inf → signField F x = 0#1 → sqrt F c x = x ∧ x = expMask F) ∧
    (∀ x : BitVec F.w, classify F x = .nan → sqrt F c x = c.prop x ∧ classify F (sqrt F c x) = .nan) ∧
    ∀ x : BitVec F.w, (refCfg F).prop x = x ||| (1#F.w <<< (F.mw - 1))

/-- R143, R201: -infinity and every negative finite nonzero operand give NANINV_F of it, a NaN, as an ordinary
result; -0 is not one of them. -/
def Obligations.SqrtOfAnInvalidOperandIsANan : Prop :=
  (∀ F : Format, F = fmtS ∨ F = fmtD → ∀ c : NanConfig F, NanOk c → ∀ x : BitVec F.w,
    signField F x = 1#1 →
    classify F x = .inf ∨ classify F x = .subnormal ∨ classify F x = .normal →
      sqrt F c x = c.inv x ∧ classify F (sqrt F c x) = .nan) ∧
  (∀ F : Format, F = fmtS ∨ F = fmtD → ∀ x : BitVec F.w,
    (refCfg F).inv x = expMask F ||| (1#F.w <<< (F.mw - 1)) ∧ isInvalid F (signMask F) = false) ∧
  (∀ (x : BitVec 32) (s : State), isInvalid fmtS x = true → ∃ y : BitVec 32,
    exec (.sqrtS x) s = .next (s.answered (.sqrtS y)) ∧ classify fmtS y = .nan) ∧
  ∀ (x : BitVec 64) (s : State), isInvalid fmtD x = true → ∃ y : BitVec 64,
    exec (.sqrtD x) s = .next (s.answered (.sqrtD y)) ∧ classify fmtD y = .nan

/-- R8's constraint is met by the block's open parameters, whatever their free choices are, and by the reference
configuration of D5. -/
def Obligations.NanParametersMeetTheirConstraint : Prop :=
  NanOk blockNanS ∧ NanOk blockNanD ∧ NanOk (refCfg fmtS) ∧ NanOk (refCfg fmtD)

/-- The free choices of log entry 1 are exactly the NaN patterns of the format: each choice gives a NaN, and each
NaN is given by exactly one choice. So the model allows every instance R8 allows and no other. -/
def Obligations.NanChoicesAreExactlyTheNanPatterns : Prop :=
  ∀ F : Format, F = fmtS ∨ F = fmtD →
    (∀ choice, classify F (nanOf F choice) = .nan) ∧
    ∀ y : BitVec F.w, classify F y = .nan → ∃! choice, nanOf F choice = y

/-- Every result that is not a NaN is the same under every two configurations (92_eei_decisions.md: "every result
of SQRT.S and SQRT.D that is not a NaN is determined by the source alone"). -/
def Obligations.OnlyNanResultsDependOnTheConfiguration : Prop :=
  ∀ F : Format, F = fmtS ∨ F = fmtD → ∀ (c c' : NanConfig F) (x : BitVec F.w),
    NanOk c → NanOk c' → classify F (sqrt F c x) ≠ .nan → sqrt F c x = sqrt F c' x

/-- R157 (and R205): the table of six cases and the ordered tests select the same case: stored exponent all ones
first, then all bits but the sign zero, then the sign. -/
def Obligations.NanTestThenZeroTestThenSignTest : Prop :=
  ∀ F : Format, F = fmtS ∨ F = fmtD → ∀ (c : NanConfig F) (x : BitVec F.w),
    sqrt F c x =
      if (expField F x).toNat = 2 ^ F.ew - 1 then
        (if (mantField F x).toNat ≠ 0 then c.prop x else if signField F x = 0#1 then x else c.inv x)
      else if x &&& ~~~ signMask F = 0#F.w then x
      else if x &&& signMask F ≠ 0#F.w then c.inv x
      else roundedRoot F x

/-! ### The square root: the rounded root -/

/-- R149, which the spec derives from R147 and R148: the invariant of the recurrence after every iteration, and its
consequences at the end, at any format and for every significand the recurrence is started on. -/
def Obligations.RecurrenceInvariant : Prop :=
  ∀ (F : Format) (sig2 : Nat), 2 ^ F.mw ≤ sig2 → sig2 < 2 ^ (F.mw + 2) →
    let N := sig2 * 2 ^ (F.mw + 2)
    N = (sig2 <<< 1) * 2 ^ (F.mw + 1) ∧ 2 ^ (2 * F.mw + 2) ≤ N ∧ N < 2 ^ (2 * F.mw + 4) ∧
    (∀ k, k ≤ niter F →
      let w := workRun (workStart F sig2) k
      let B : Nat := 2 ^ (F.mw + 2 - k)
      (k ≤ F.mw + 1 → w.r = 2 ^ (F.mw + 1 - k)) ∧ (k = niter F → w.r = 0) ∧
      w.q = B * ⌊Real.sqrt N / B⌋₊ ∧ w.s = 2 * w.q ∧ w.q ^ 2 ≤ N ∧
      w.ix * 2 ^ (F.mw + 1) = (N - w.q ^ 2) * 2 ^ k) ∧
    let w := workRun (workStart F sig2) (niter F)
    w.q = ⌊Real.sqrt N⌋₊ ∧ 2 ^ (F.mw + 1) ≤ w.q ∧ w.q < 2 ^ (F.mw + 2) ∧
    w.ix = 2 * (N - w.q ^ 2) ∧ (w.ix = 0 ↔ ∃ n, N = n ^ 2)

/-- R154, which the spec derives from R149: no working value reaches `2^(MW+4)`, so 27 bits hold every one of
`SQRT.S` and 56 bits every one of `SQRT.D`; the largest remainder of `SQRT.S` is 0x07FFFFF8. -/
def Obligations.WorkingValuesAreBounded : Prop :=
  (∀ (F : Format) (sig2 : Nat), 2 ^ F.mw ≤ sig2 → sig2 < 2 ^ (F.mw + 2) →
    ∀ k, k ≤ niter F →
      let w := workRun (workStart F sig2) k
      w.q ≤ 2 ^ (F.mw + 2) - 2 ^ (F.mw + 2 - k) ∧ w.s = 2 * w.q ∧ w.s < 2 ^ (F.mw + 3) ∧
      (k < niter F → w.s + w.r < 2 ^ (F.mw + 3)) ∧ w.ix < 2 ^ (F.mw + 4)) ∧
  (∀ F : Format, F = fmtS ∨ F = fmtD → ∀ x : BitVec F.w, classify F x = .subnormal ∨ classify F x = .normal →
    paritySig (significand F x).toNat (normExp F x) < 2 ^ (F.mw + 2)) ∧
  fmtS.mw + 4 = 27 ∧ fmtD.mw + 4 = 56 ∧
  (∀ x : BitVec 32, classify fmtS x = .subnormal ∨ classify fmtS x = .normal → ∀ k, k ≤ 25 →
    (workRun (workStart fmtS (paritySig (significand fmtS x).toNat (normExp fmtS x))) k).ix ≤ 0x07FFFFF8) ∧
  (rootWork fmtS 0x407FFFFF#32).ix = 0x07FFFFF8

/-- R145, R146: what the recurrence is started on. The operand's value is `sig2 * 2^(2h - MW)` with `sig2 / 2^MW`
in [1, 4), and the exponents lie in their ranges. -/
def Obligations.OperandIsNormalisedAndItsExponentHalved : Prop :=
  (∀ F : Format, F = fmtS ∨ F = fmtD → ∀ x : BitVec F.w, signField F x = 0#1 →
    classify F x = .subnormal ∨ classify F x = .normal →
    let sig := (decompose F x).sig.toNat
    let m := (decompose F x).nexp
    let sig2 := paritySig sig m
    let h := halfExp m
    (classify F x = .normal →
      sig = 2 ^ F.mw ||| (mantField F x).toNat ∧ m = ((expField F x).toNat : Int) - bias F) ∧
    (classify F x = .subnormal →
      sig = (mantField F x).toNat <<< (clz x - F.ew) ∧ F.ew ≤ clz x ∧
      m = 1 - (bias F : Int) - (clz x - F.ew : Nat)) ∧
    2 ^ F.mw ≤ sig ∧ sig < 2 ^ (F.mw + 1) ∧
    valueOf F x = .finite ((sig : ℚ) * 2 ^ (m - (F.mw : Int))) ∧
    (m % 2 = 1 → sig2 = sig <<< 1 ∧ m = 2 * h + 1) ∧ (m % 2 = 0 → sig2 = sig ∧ m = 2 * h) ∧
    2 ^ F.mw ≤ sig2 ∧ sig2 < 2 ^ (F.mw + 2) ∧
    valueOf F x = .finite ((sig2 : ℚ) * 2 ^ (2 * h - (F.mw : Int)))) ∧
  (∀ x : BitVec 32, classify fmtS x = .subnormal ∨ classify fmtS x = .normal →
    -149 ≤ normExp fmtS x ∧ normExp fmtS x ≤ 127 ∧
    -75 ≤ halfExp (normExp fmtS x) ∧ halfExp (normExp fmtS x) ≤ 63) ∧
  (∀ x : BitVec 64, classify fmtD x = .subnormal ∨ classify fmtD x = .normal →
    -1074 ≤ normExp fmtD x ∧ normExp fmtD x ≤ 1023 ∧
    -537 ≤ halfExp (normExp fmtD x) ∧ halfExp (normExp fmtD x) ≤ 511) ∧
  halfExp (-149) = -75 ∧ halfExp (-1) = -1 ∧ (-149 : Int) % 2 = 1

/-- R150, with what the spec derives of it in R153: rounding is to nearest. For every significand an operand can
give, the loop ends with the integer square root and twice what is left; a zero remainder has a zero guard bit;
rounding never carries out of the significand; and the kept bits are the integer strictly nearest to `sqrt(N) /
2`. -/
def Obligations.RoundingGivesTheNearestInteger : Prop :=
  ∀ (F : Format) (sig2 : Nat), 2 ^ F.mw ≤ sig2 → sig2 ≤ 2 ^ (F.mw + 2) - 2 →
    let N := sig2 * 2 ^ (F.mw + 2)
    let w := workRun (workStart F sig2) (niter F)
    let Q := roundRoot w >>> 1
    w.q = Nat.sqrt N ∧ w.ix = 2 * (N - w.q ^ 2) ∧
    (w.ix = 0 → w.q % 2 = 0 ∧ roundRoot w = w.q) ∧
    (w.ix ≠ 0 → roundRoot w = w.q + w.q % 2) ∧
    (w.ix ≠ 0 → w.q % 2 = 1 → Q = (w.q + 2) >>> 1) ∧
    (w.q % 2 = 0 → Q = w.q >>> 1) ∧
    w.q ≤ 2 ^ (F.mw + 2) - 2 ∧ roundRoot w ≤ 2 ^ (F.mw + 2) - 2 ∧
    2 ^ F.mw ≤ Q ∧ Q ≤ 2 ^ (F.mw + 1) - 1 ∧
    ∀ j : Int, j ≠ Q → |(Q : ℝ) - Real.sqrt N / 2| < |(j : ℝ) - Real.sqrt N / 2|

/-- R151: the packed result, and the equal sum that needs no slicing. The equivalence and the ranges of the stored
exponent are marked by the rule itself "[derived: the equivalence and the ranges, from rules R146 and R153]". -/
def Obligations.ReassemblyFormsAgree : Prop :=
  (∀ F : Format, F = fmtS ∨ F = fmtD → ∀ x : BitVec F.w,
    classify F x = .subnormal ∨ classify F x = .normal →
    let h := halfExp (normExp F x)
    let Q := roundRoot (rootWork F x) >>> 1
    2 ^ F.mw ≤ Q ∧ Q < 2 ^ (F.mw + 1) ∧
    roundedRoot F x = pack F 0#1 (BitVec.ofInt F.ew (h + bias F)) (BitVec.ofNat F.mw Q) ∧
    ((expField F (roundedRoot F x)).toNat : Int) = h + bias F ∧
    ((roundedRoot F x).toNat : Int) = (Q : Int) + (h + bias F - 1) * 2 ^ F.mw) ∧
  (∀ x : BitVec 32, classify fmtS x = .subnormal ∨ classify fmtS x = .normal →
    52 ≤ (expField fmtS (roundedRoot fmtS x)).toNat ∧ (expField fmtS (roundedRoot fmtS x)).toNat ≤ 190) ∧
  ∀ x : BitVec 64, classify fmtD x = .subnormal ∨ classify fmtD x = .normal →
    486 ≤ (expField fmtD (roundedRoot fmtD x)).toNat ∧ (expField fmtD (roundedRoot fmtD x)).toNat ≤ 1534

/-- R152: the numeric contract. The result of a positive finite nonzero operand has sign 0 and is the representable
number nearest to the real square root of the operand's value; no two are equally near. In integers, `sqrt(v) =
(sqrt(N) / 2^(MW+1)) * 2^h`, with that quotient in [1, 2), and the result is `Q * 2^(h - MW)`. -/
def Obligations.RootIsCorrectlyRounded : Prop :=
  ∀ F : Format, F = fmtS ∨ F = fmtD → ∀ (c : NanConfig F) (x : BitVec F.w) (v : ℚ),
    valueOf F x = .finite v → 0 < v →
    ∃ u : ℚ, valueOf F (sqrt F c x) = .finite u ∧ signField F (sqrt F c x) = 0#1 ∧
      (∀ (z : BitVec F.w) (t : ℚ), (valueOf F z).rat? = some t → t ≠ u →
        |(u : ℝ) - Real.sqrt v| < |(t : ℝ) - Real.sqrt v|) ∧
      let h := halfExp (normExp F x)
      let N := paritySig (significand F x).toNat (normExp F x) * 2 ^ (F.mw + 2)
      let Q := roundRoot (rootWork F x) >>> 1
      Real.sqrt v = Real.sqrt N / 2 ^ (F.mw + 1) * 2 ^ h ∧
      1 ≤ Real.sqrt N / 2 ^ (F.mw + 1) ∧ Real.sqrt N / 2 ^ (F.mw + 1) < 2 ∧
      ((expField F (sqrt F c x)).toNat : Int) = h + bias F ∧
      (significand F (sqrt F c x)).toNat = Q ∧
      u = (Q : ℚ) * 2 ^ (h - (F.mw : Int))

/-- R155, which the spec derives from R152 and R90: perfect squares are exact, the root is monotone, and it is
never zero, subnormal, infinite or NaN. -/
def Obligations.PerfectSquaresMonotonicityAndClass : Prop :=
  ∀ F : Format, F = fmtS ∨ F = fmtD → ∀ c : NanConfig F,
    (∀ (x y : BitVec F.w) (w : ℚ), signField F x = 0#1 → signField F y = 0#1 →
      (valueOf F y).rat? = some w → (valueOf F x).rat? = some (w ^ 2) → sqrt F c x = y) ∧
    (∀ x x' : BitVec F.w, signField F x = 0#1 → signField F x' = 0#1 →
      classify F x ≠ .nan → classify F x' ≠ .nan → x < x' → sqrt F c x ≤ sqrt F c x') ∧
    (∀ x : BitVec F.w, signField F x = 0#1 → classify F x = .subnormal ∨ classify F x = .normal →
      0#F.w < sqrt F c x ∧ sqrt F c x < expMask F ∧ classify F (sqrt F c x) = .normal)

/-- R156, which the spec derives from R142, R143, R146 and R151: the class and the sign of the result, over all
operands, and the smallest and largest results. -/
def Obligations.ClassOfTheResult : Prop :=
  (∀ F : Format, F = fmtS ∨ F = fmtD → ∀ (c : NanConfig F), NanOk c → ∀ x : BitVec F.w,
    let d := decompose F x
    let y := sqrt F c x
    (d.cls = .nan → classify F y = .nan) ∧
    (d.cls = .inf ∧ d.sign = 0#1 → classify F y = .inf ∧ signField F y = 0#1) ∧
    (d.sign = 1#1 ∧ (d.cls = .inf ∨ d.cls = .subnormal ∨ d.cls = .normal) → classify F y = .nan) ∧
    (d.cls = .zero → classify F y = .zero ∧ signField F y = d.sign) ∧
    (d.sign = 0#1 ∧ (d.cls = .subnormal ∨ d.cls = .normal) →
      classify F y = .normal ∧ signField F y = 0#1)) ∧
  (∀ (c : NanConfig fmtS) (x : BitVec 32), signField fmtS x = 0#1 →
    classify fmtS x = .subnormal ∨ classify fmtS x = .normal →
    52 ≤ (expField fmtS (sqrt fmtS c x)).toNat ∧ (expField fmtS (sqrt fmtS c x)).toNat ≤ 190 ∧
    0x1A3504F3#32 ≤ sqrt fmtS c x ∧ sqrt fmtS c x ≤ 0x5F7FFFFF#32) ∧
  (∀ (c : NanConfig fmtD) (x : BitVec 64), signField fmtD x = 0#1 →
    classify fmtD x = .subnormal ∨ classify fmtD x = .normal →
    486 ≤ (expField fmtD (sqrt fmtD c x)).toNat ∧ (expField fmtD (sqrt fmtD c x)).toNat ≤ 1534 ∧
    0x1E60000000000000#64 ≤ sqrt fmtD c x ∧ sqrt fmtD c x ≤ 0x5FEFFFFFFFFFFFFF#64) ∧
  (∀ c : NanConfig fmtS, sqrt fmtS c 0x00000001#32 = 0x1A3504F3#32 ∧
    sqrt fmtS c 0x7F7FFFFF#32 = 0x5F7FFFFF#32) ∧
  ∀ c : NanConfig fmtD, sqrt fmtD c 0x0000000000000001#64 = 0x1E60000000000000#64 ∧
    sqrt fmtD c 0x7FEFFFFFFFFFFFFF#64 = 0x5FEFFFFFFFFFFFFF#64

/-- R180: `SQRT.S` completes on every operand and state with the result of its rule's pseudocode run in 32-bit
registers, under every NaN configuration; with the rule's corner cases, in REFCFG where a NaN is printed. -/
def Obligations.SqrtSRunsItsRule : Prop :=
  (∀ (x : BitVec 32) (s : State),
    exec (.sqrtS x) s = .next (s.answered (.sqrtS (ruleR180 blockNanS x)))) ∧
  (∀ (c : NanConfig fmtS) (x : BitVec 32), sqrt fmtS c x = ruleR180 c x) ∧
  (∀ a : Bus, decode { op := 0b00#2, a := a } = .sqrtS (a.extractLsb' 0 32)) ∧
  (∀ y : BitVec 32, (Response.sqrtS y).bus = some (0#32 ++ y)) ∧
  (∀ p ∈ ([(0x00000000, 0x00000000), (0x80000000, 0x80000000), (0x7F800000, 0x7F800000),
      (0xFF800000, 0x7FC00000), (0x7F800001, 0x7FC00001), (0xFFFFFFFF, 0xFFFFFFFF), (0x80000001, 0x7FC00000),
      (0xBF800000, 0x7FC00000), (0x00000001, 0x1A3504F3), (0x00000002, 0x1A800000), (0x007FFFFF, 0x1FFFFFFF),
      (0x00800000, 0x20000000), (0x3F800000, 0x3F800000), (0x3F800001, 0x3F800000), (0x3F7FFFFF, 0x3F7FFFFF),
      (0x407FFFFF, 0x3FFFFFFF), (0x40A00000, 0x400F1BBD), (0x7F7FFFFF, 0x5F7FFFFF),
      (0x40000000, 0x3FB504F3)] : List (BitVec 32 × BitVec 32)),
    sqrt fmtS (refCfg fmtS) p.1 = p.2)

/-- R190: `SQRT.D` completes on every operand and state with the result of its rule's pseudocode run in 64-bit
registers, under every NaN configuration; with the rule's corner cases, in REFCFG where a NaN is printed. -/
def Obligations.SqrtDRunsItsRule : Prop :=
  (∀ (x : BitVec 64) (s : State),
    exec (.sqrtD x) s = .next (s.answered (.sqrtD (ruleR190 blockNanD x)))) ∧
  (∀ (c : NanConfig fmtD) (x : BitVec 64), sqrt fmtD c x = ruleR190 c x) ∧
  (∀ a : Bus, decode { op := 0b01#2, a := a } = .sqrtD a) ∧
  (∀ p ∈ ([(0x0000000000000000, 0x0000000000000000), (0x8000000000000000, 0x8000000000000000),
      (0x7FF0000000000000, 0x7FF0000000000000), (0xFFF0000000000000, 0x7FF8000000000000),
      (0x7FF0000000000001, 0x7FF8000000000001), (0xFFFFFFFFFFFFFFFF, 0xFFFFFFFFFFFFFFFF),
      (0x8000000000000001, 0x7FF8000000000000), (0xBFF0000000000000, 0x7FF8000000000000),
      (0x0000000000000001, 0x1E60000000000000), (0x0000000000000002, 0x1E66A09E667F3BCD),
      (0x000FFFFFFFFFFFFF, 0x1FFFFFFFFFFFFFFF), (0x0010000000000000, 0x2000000000000000),
      (0x3FF0000000000000, 0x3FF0000000000000), (0x3FF0000000000001, 0x3FF0000000000000),
      (0x3FEFFFFFFFFFFFFF, 0x3FEFFFFFFFFFFFFF), (0x400FFFFFFFFFFFFF, 0x3FFFFFFFFFFFFFFF),
      (0x4000000000000000, 0x3FF6A09E667F3BCD), (0x7FEFFFFFFFFFFFFF, 0x5FEFFFFFFFFFFFFF),
      (0x4010000000000000, 0x4000000000000000)] : List (BitVec 64 × BitVec 64)),
    sqrt fmtD (refCfg fmtD) p.1 = p.2)

/-- R181, which the spec derives from R152, R153, R155 and R156: the contract of `SQRT.S` as the machine performs
it: nearest, sign 0, stored exponent 52 to 190, and non-decreasing in the operand. -/
def Obligations.SqrtSMeetsItsContract : Prop :=
  (∀ (x : BitVec 32) (s : State), 0x00000001#32 ≤ x → x ≤ 0x7F7FFFFF#32 → ∃ (y : BitVec 32) (v u : ℚ),
    exec (.sqrtS x) s = .next (s.answered (.sqrtS y)) ∧
    valueOf fmtS x = .finite v ∧ valueOf fmtS y = .finite u ∧
    (∀ (z : BitVec 32) (t : ℚ), (valueOf fmtS z).rat? = some t → z ≠ y →
      |(u : ℝ) - Real.sqrt v| < |(t : ℝ) - Real.sqrt v|) ∧
    y.extractLsb' 31 1 = 0#1 ∧ 52 ≤ (y.extractLsb' 23 8).toNat ∧ (y.extractLsb' 23 8).toNat ≤ 190) ∧
  ∀ (x x' y y' : BitVec 32) (s : State), 0x00000001#32 ≤ x → x ≤ x' → x' ≤ 0x7F7FFFFF#32 →
    exec (.sqrtS x) s = .next (s.answered (.sqrtS y)) →
    exec (.sqrtS x') s = .next (s.answered (.sqrtS y')) → y ≤ y'

/-- R191, which the spec derives from R152, R153, R155 and R156: the contract of `SQRT.D` as the machine performs
it: nearest, sign 0, stored exponent 486 to 1534, and non-decreasing in the operand. -/
def Obligations.SqrtDMeetsItsContract : Prop :=
  (∀ (x : BitVec 64) (s : State), 0x0000000000000001#64 ≤ x → x ≤ 0x7FEFFFFFFFFFFFFF#64 →
    ∃ (y : BitVec 64) (v u : ℚ),
    exec (.sqrtD x) s = .next (s.answered (.sqrtD y)) ∧
    valueOf fmtD x = .finite v ∧ valueOf fmtD y = .finite u ∧
    (∀ (z : BitVec 64) (t : ℚ), (valueOf fmtD z).rat? = some t → z ≠ y →
      |(u : ℝ) - Real.sqrt v| < |(t : ℝ) - Real.sqrt v|) ∧
    y.extractLsb' 63 1 = 0#1 ∧ 486 ≤ (y.extractLsb' 52 11).toNat ∧ (y.extractLsb' 52 11).toNat ≤ 1534) ∧
  ∀ (x x' y y' : BitVec 64) (s : State), 0x0000000000000001#64 ≤ x → x ≤ x' → x' ≤ 0x7FEFFFFFFFFFFFFF#64 →
    exec (.sqrtD x) s = .next (s.answered (.sqrtD y)) →
    exec (.sqrtD x') s = .next (s.answered (.sqrtD y')) → y ≤ y'

/-! ### Requests, encoding and listing -/

/-- R61, R64: the two fields of the code, and the four-way map. -/
def Obligations.OpcodeMap : Prop :=
  (∀ op : OpCode, (opUnit op = true ↔ op.getLsbD 1 = true) ∧ (opFmt op = true ↔ op.getLsbD 0 = true)) ∧
  ∀ a : Bus,
    decode { op := 0x0#2, a := a } = .sqrtS (a.extractLsb' 0 32) ∧
    decode { op := 0x1#2, a := a } = .sqrtD a ∧
    decode { op := 0x2#2, a := a } = .decS (a.extractLsb' 0 32) ∧
    decode { op := 0x3#2, a := a } = .decD a

/-- R62, R43(b): the `.S` operations take `a[31:0]` as it stands and do not see `a[63:32]`; the `.D` operations
take all 64 bits; `SQRT.S` drives zero on the upper half of the result bus. -/
def Obligations.UpperHalfOfTheBusIsIgnoredForS : Prop :=
  (∀ (op : OpCode) (hi hi' lo : BitVec 32), opFmt op = false →
    decode { op := op, a := hi ++ lo } = decode { op := op, a := hi' ++ lo } ∧
    (decode { op := op, a := hi ++ lo } = .sqrtS lo ∨ decode { op := op, a := hi ++ lo } = .decS lo)) ∧
  (∀ (op : OpCode) (a : Bus), opFmt op = true →
    decode { op := op, a := a } = .sqrtD a ∨ decode { op := op, a := a } = .decD a) ∧
  (∀ y : BitVec 32, (Response.sqrtS y).bus = some (0#32 ++ y)) ∧
  ∀ y : BitVec 64, (Response.sqrtD y).bus = some y

/-- Decoding the request an instruction encodes to gives the instruction back, with its operand at every value; and
encoding a decoded request gives the request back exactly where it carries nothing the block ignores. -/
def Obligations.DecodeAndEncodeAgree : Prop :=
  (∀ i : Instr, decode (encode i) = i) ∧
  (∀ r : Request, encode (decode r) = r ↔ r.canonical = true) ∧
  ∀ r r' : Request, r.canonical = true → r'.canonical = true → decode r = decode r' → r = r'

/-- R65: every code is an operation and every operand is legal: each table word decodes, each request is answered,
and no class code above 4 is produced. -/
def Obligations.NothingIsReservedOrIllegal : Prop :=
  (∀ nbits w : Nat, ∃ i, decodeTableWord nbits w = some i) ∧
  (∀ (r : Request) (s : State), ∃ y : Response, exec (decode r) s = .next (s.answered y)) ∧
  (∀ x : BitVec 32, (decompose fmtS x).cls.code ≤ 4#3) ∧
  ∀ x : BitVec 64, (decompose fmtD x).cls.code ≤ 4#3

/-- The decode vectors of 95_test_vectors.md part 2.7. -/
def Obligations.WorkedRequestsDecode : Prop :=
  decode { op := 0b00#2, a := 0x0000000040000000#64 } = .sqrtS 0x40000000#32 ∧
  decode { op := 0b00#2, a := 0xDEADBEEF40000000#64 } = .sqrtS 0x40000000#32 ∧
  decode { op := 0b00#2, a := 0xFFFFFFFF41C80000#64 } = .sqrtS 0x41C80000#32 ∧
  decode { op := 0b00#2, a := 0x4000000000000000#64 } = .sqrtS 0x00000000#32 ∧
  decode { op := 0b01#2, a := 0x4000000000000000#64 } = .sqrtD 0x4000000000000000#64 ∧
  decode { op := 0b01#2, a := 0x0000000040000000#64 } = .sqrtD 0x0000000040000000#64 ∧
  decode { op := 0b10#2, a := 0x1234567800000001#64 } = .decS 0x00000001#32 ∧
  decode { op := 0b11#2, a := 0x1234567800000001#64 } = .decD 0x1234567800000001#64

/-- R67, R68: a listing prints `<dst> = <MNEMONIC> <operand>`, and every line it can print, of each of the three
operand forms and with or without a comment, reads back as itself. The line of an instruction asks for that
instruction, its operand being `0x` and `W/4` digits. The source's names are read as aliases. The reading of
digits and names is log entry 11. -/
def Obligations.ListingReadsBack : Prop :=
  (∀ l : Line, l.print = l.dst ++ [' ', '=', ' '] ++ mnemonicOf l.op ++ [' '] ++ l.src.print) ∧
  (∀ (names : Names) (l : Line), l.wellFormed = true → readLine names l.print = some l ∧
    ∀ comment : List Char, readLine names (l.print ++ ' ' :: ';' :: comment) = some l) ∧
  (∀ (names : Names) (dst : Name) (i : Instr), isName dst = true →
    readLine names (listing dst i) = some (lineOf dst i) ∧
    (lineOf dst i).request names = some (encode i)) ∧
  (∀ (names : Names) (i : Instr), assemble names (mnemonic i) (operandText i) = some i) ∧
  (∀ (names : Names) (x : BitVec 32), (printOperand x).length = 2 + 8 ∧
    assemble names ['s', 'q', 'r', 't', '_', 'f', '3', '2'] (printOperand x) = some (.sqrtS x) ∧
    assemble names ['s', 'q', 'r', 't'] (printOperand x) = some (.sqrtS x)) ∧
  ∀ (names : Names) (x : BitVec 64), (printOperand x).length = 2 + 16 ∧
    assemble names ['s', 'q', 'r', 't', '_', 'f', '6', '4'] (printOperand x) = some (.sqrtD x) ∧
    assemble names ['s', 'q', 'r', 't'] (printOperand x) = some (.sqrtD x)

/-! ### The machine -/

/-- The frame and completion of every instruction, in every state: it gives its one response, which is the answer
to the instruction, and changes nothing else. -/
def Obligations.ExecGivesItsAnswerAndNothingElse : Prop :=
  ∀ (i : Instr) (s : State),
    exec i s = .next { requests := s.requests, responses := s.responses ++ [answer i] }

/-- A step performs the instruction that the oldest request decodes to, with that request taken away; with no
request it does nothing (the model's reading of R60, log entry 4). -/
def Obligations.StepPerformsTheOldestRequest : Prop :=
  (∀ (s : State) (r : Request) (rest : List Request), s.requests = r :: rest →
    step s = exec (decode r) { requests := rest, responses := s.responses } ∧
    step s = .next { requests := rest, responses := s.responses ++ [answer (decode r)] }) ∧
  ∀ s : State, s.requests = [] → step s = .next s

/-- A table word presented to the block is what its next step performs, after reset and in every other state (log
entry 6). -/
def Obligations.PresentedWordIsPerformedNext : Prop :=
  ∀ (s : State) (nbits w : Nat) (i : Instr), decodeTableWord nbits w = some i →
    step (s.withFetchWord nbits w) = exec i { requests := s.requests.tail, responses := s.responses }

/-- No step faults (R200) or is refused (R203, which the spec derives; log entry 12), in any state; that a step
without a request goes on is log entry 4. -/
def Obligations.NoStepEverStops : Prop :=
  ∀ s : State, ∃ t : State, step s = .next t

/-- R46: the response to an instruction is a function of the instruction alone: two states that share nothing get
the same one. -/
def Obligations.ResponseIsAFunctionOfTheInstruction : Prop :=
  ∀ i : Instr, ∃ y : Response, ∀ s : State, exec i s = .next (s.answered y)

/-- Every outstanding request is answered, in the order presented (log entry 4), in as many steps as there are
requests, and the block is then idle. -/
def Obligations.RunAnswersEveryRequest : Prop :=
  ∀ (s : State) (more : Nat),
    core.run (s.requests.length + more) s =
      .next { requests := [], responses := s.responses ++ s.requests.map (fun r => answer (decode r)) }

/-- R209: any interleaving of the same requests gives the same multiset of responses, each request the response it
gets when it is alone. -/
def Obligations.InterleavingsGiveTheSameResponses : Prop :=
  ∀ (rs rs' : List Request) (t t' : State), rs.Perm rs' →
    core.run rs.length { requests := rs, responses := [] } = .next t →
    core.run rs'.length { requests := rs', responses := [] } = .next t' →
    t.responses.Perm t'.responses ∧
    ∀ r ∈ rs, ∃ y ∈ t.responses, step { requests := [r], responses := [] } = .next { requests := [], responses := [y] }

/-- R222, which the spec derives: the first operation after reset, and every later one, gives exactly the value its
rule gives for its operand, whatever came before. That the requests are answered oldest first, so that the last one
is left and its answer stands last, is log entry 4; the reset state is log entry 3. -/
def Obligations.EveryOperationAfterResetGivesItsValue : Prop :=
  ∀ (before : List Request) (r : Request) (t : State),
    core.run before.length { State.reset with requests := before ++ [r] } = .next t →
    step t = .next { requests := [], responses := t.responses ++ [answer (decode r)] }

/-- Every step keeps the invariant: every response given is one the rules allow. A record is the decomposition of
the pattern it packs to and lies in the ranges of R110; a root is of a class, sign and exponent that R156
allows. -/
def Obligations.StepKeepsEveryResponseAllowed : Prop :=
  ∀ s t : State, s.Inv → step s = .next t → t.Inv

/-- Reset leaves nothing outstanding and nothing answered (the model's own values, log entry 3), and meets the
invariant. -/
def Obligations.ResetMeetsTheInvariant : Prop :=
  State.reset.requests = [] ∧ State.reset.responses = [] ∧ State.reset.Inv

/-! ### Added after the first review -/

/-- R153 (a) to (f), which the spec derives from R146 to R152: the loop and the rounding end in the nearest integer to
`sqrt(N) / 2`, part by part as `RoundsToNearest` lists them, and the packed root has the value `Q * 2^(h - MW)`,
the representable number nearest to the root. -/
def Obligations.AlgorithmMeetsItsContract : Prop :=
  ∀ F : Format, F = fmtS ∨ F = fmtD → ∀ x : BitVec F.w, signField F x = 0#1 →
    classify F x = .subnormal ∨ classify F x = .normal →
    let sig2 := paritySig (significand F x).toNat (normExp F x)
    let Q := roundRoot (rootWork F x) >>> 1
    RoundsToNearest F sig2 (sig2 * 2 ^ (F.mw + 2)) (rootWork F x) Q ∧
    IsNearestRoot F x (roundedRoot F x) Q ∧
    ∀ c : NanConfig F, sqrt F c x = roundedRoot F x

/-- R67: what the operand of a line stands for. A pattern has exactly `W/4` digits; a name stands for the result it was
given to, of the same width; `<name>.<field>` stands for the number of a field of a `DEC` record, and for a negative
one for a pattern nothing is said about (log entry 13). The line's request is its code followed by that operand,
and once it is answered its `<dst>` names the response the block gives. -/
def Obligations.OperandOfALineStandsForItsValue : Prop :=
  (∀ (names : Names) (op : OpCode) (src : Source), opFmt op = false →
    requestOf names op src = (src.operand names 32).map fun x => { op := op, a := busOfS x }) ∧
  (∀ (names : Names) (op : OpCode) (src : Source), opFmt op = true →
    requestOf names op src = (src.operand names 64).map fun x => { op := op, a := x }) ∧
  (∀ (names : Names) (count v : Nat),
    ((Source.pattern count v).operand names 32 = if count = 8 then some (BitVec.ofNat 32 v) else none) ∧
    ((Source.pattern count v).operand names 64 = if count = 16 then some (BitVec.ofNat 64 v) else none)) ∧
  (∀ (names : Names) (n : Name) (y : BitVec 32), names.lookup n = some (.sqrtS y) →
    (Source.name n).operand names 32 = some y ∧ (Source.name n).operand names 64 = none) ∧
  (∀ (names : Names) (n : Name) (y : BitVec 64), names.lookup n = some (.sqrtD y) →
    (Source.name n).operand names 64 = some y ∧ (Source.name n).operand names 32 = none) ∧
  (∀ (names : Names) (n : Name) (f : Field) (x : BitVec 32) (w : Nat), w = 32 ∨ w = 64 →
    names.lookup n = some (.decS (decompose fmtS x)) → 0 ≤ fieldNumber (decompose fmtS x) f →
    ∃ a : BitVec w, (Source.field n f).operand names w = some a ∧
      (a.toNat : Int) = fieldNumber (decompose fmtS x) f) ∧
  (∀ (names : Names) (n : Name) (f : Field) (x : BitVec 64),
    names.lookup n = some (.decD (decompose fmtD x)) → 0 ≤ fieldNumber (decompose fmtD x) f →
    ∃ a : BitVec 64, (Source.field n f).operand names 64 = some a ∧
      (a.toNat : Int) = fieldNumber (decompose fmtD x) f) ∧
  (∀ (names : Names) (n : Name) (f : Field) (x : BitVec 32) (w : Nat), w = 32 ∨ w = 64 →
    names.lookup n = some (.decS (decompose fmtS x)) → fieldNumber (decompose fmtS x) f < 0 →
    ∃ a : BitVec w, (Source.field n f).operand names w = some a) ∧
  (∀ (names : Names) (n : Name) (f : Field) (x : BitVec 64),
    names.lookup n = some (.decD (decompose fmtD x)) → fieldNumber (decompose fmtD x) f < 0 →
    ∃ a : BitVec 64, (Source.field n f).operand names 64 = some a) ∧
  ∀ (names : Names) (l : Line) (r : Request), l.request names = some r →
    l.perform names = some ((l.dst, answer (decode r)) :: names) ∧
    step { requests := [r], responses := [] } = .next { requests := [], responses := [answer (decode r)] }
end

