-- ==== Sys2Proof/Laws/Decode.lean ====
section
/-! SUPPORT. What the two halves of the operand bus hold. -/

namespace Sys2Proof

/-- A bus word is its two halves. -/
theorem bus_halves (a : Bus) : a.extractLsb' 32 32 ++ a.extractLsb' 0 32 = a := by
  apply BitVec.eq_of_getLsbD_eq
  intro i hi
  rw [BitVec.getLsbD_append]
  by_cases h : i < 32
  · simp [h]
  · have h2 : i - 32 < 32 := by omega
    have h3 : 32 + (i - 32) = i := by omega
    simp [h, h2, h3]

theorem busOfS_eq (x : BitVec 32) : busOfS x = 0#32 ++ x := by
  apply BitVec.eq_of_toNat_eq
  rw [busOfS, BitVec.toNat_append, BitVec.toNat_setWidth, Nat.mod_eq_of_lt (by omega)]; simp

/-- The `.S` operand is the lower half, whatever stands above it (R62). -/
@[simp] theorem operandS_append (hi lo : BitVec 32) : operandS (hi ++ lo) = lo := BitVec.extractLsb'_append_eq_right

@[simp] theorem operandS_busOfS (x : BitVec 32) : operandS (busOfS x) = x := by
  rw [busOfS_eq, operandS_append]

/-- Carrying the `.S` operand of a word again gives the word back where its upper half is zero. -/
theorem busOfS_operandS {a : Bus} (h : a.extractLsb' 32 32 = 0#32) : busOfS (operandS a) = a := by
  rw [busOfS_eq, operandS, ← h, bus_halves]

end Sys2Proof
end

