-- ==== Sys2Proof/Laws/Operands.lean ====
section
/-! SUPPORT. The field split, its inverse and the leading-zero count, at any format. -/

namespace Sys2Proof.Machine

variable {F : Format}

theorem pack_fields (x : BitVec F.w) :
    pack F (signField F x) (expField F x) (mantField F x) = x := by
  apply BitVec.eq_of_getLsbD_eq
  intro i hi
  simp only [pack, signField, expField, mantField, BitVec.getLsbD_append, BitVec.getLsbD_extractLsb']
  have hw : F.w = 1 + F.ew + F.mw := rfl
  by_cases h1 : i < F.mw
  · simp [h1]
  · by_cases h2 : i - F.mw < F.ew
    · simp [h1, h2, show F.mw + (i - F.mw) = i by omega]
    · simp [h1, h2, show i - F.mw - F.ew < 1 by omega,
        show F.w - 1 + (i - F.mw - F.ew) = i by omega]

theorem mantField_pack (s : BitVec 1) (e : BitVec F.ew) (f : BitVec F.mw) :
    mantField F (pack F s e f) = f := by
  apply BitVec.eq_of_getLsbD_eq
  intro i hi
  simp [pack, mantField, BitVec.getLsbD_append, hi]

theorem expField_pack (s : BitVec 1) (e : BitVec F.ew) (f : BitVec F.mw) :
    expField F (pack F s e f) = e := by
  apply BitVec.eq_of_getLsbD_eq
  intro i hi
  simp [pack, expField, BitVec.getLsbD_append, hi]

theorem signField_pack (s : BitVec 1) (e : BitVec F.ew) (f : BitVec F.mw) :
    signField F (pack F s e f) = s := by
  apply BitVec.eq_of_getLsbD_eq
  intro i hi
  have hw : F.w = 1 + F.ew + F.mw := rfl
  simp [pack, signField, BitVec.getLsbD_append, hi,
    show ¬ F.w - 1 + i < F.mw by omega, show ¬ F.w - 1 + i - F.mw < F.ew by omega,
    show F.w - 1 + i - F.mw - F.ew = i by omega]

theorem toNat_pack (s : BitVec 1) (e : BitVec F.ew) (f : BitVec F.mw) :
    (pack F s e f).toNat = (s.toNat * 2 ^ F.ew + e.toNat) * 2 ^ F.mw + f.toNat := by
  have append_toNat {m n : Nat} (a : BitVec m) (b : BitVec n) :
      (a ++ b).toNat = a.toNat * 2 ^ n + b.toNat := by
    rw [BitVec.toNat_append, Nat.shiftLeft_eq, Nat.mul_comm]
    exact (Nat.two_pow_add_eq_or_of_lt b.isLt _).symm
  rw [pack, append_toNat, append_toNat]

/-- A pattern as a number, from its fields. -/
theorem toNat_eq_fields (x : BitVec F.w) :
    x.toNat = ((signField F x).toNat * 2 ^ F.ew + (expField F x).toNat) * 2 ^ F.mw
      + (mantField F x).toNat := by
  rw [← toNat_pack, pack_fields]

theorem classify_pack (s : BitVec 1) (e : BitVec F.ew) (f : BitVec F.mw) :
    classify F (pack F s e f) = classOf F e f := by
  rw [classify, expField_pack, mantField_pack]

/-- A nonzero word lies between the powers of two its leading-zero count names. -/
theorem clz_bounds {n : Nat} {v : BitVec n} (h : v.toNat ≠ 0) :
    clz v < n ∧ 2 ^ (n - 1 - clz v) ≤ v.toNat ∧ v.toNat < 2 ^ (n - clz v) := by
  have hl : v.toNat.log2 < n := (Nat.log2_lt h).2 v.isLt
  have hn : n - 1 - clz v = v.toNat.log2 := by simp only [clz, h, if_false]; omega
  refine ⟨by simp only [clz, h, if_false]; omega, ?_, ?_⟩
  · rw [hn]; exact Nat.log2_self_le h
  · have : n - clz v = v.toNat.log2 + 1 := by simp only [clz, h, if_false]; omega
    rw [this]; exact Nat.lt_log2_self

end Sys2Proof.Machine
end

