-- ==== Sys2Proof/Laws/Decompose.lean ====
section
/-! SUPPORT. The class tests and the normalised significand, at any format with an exponent field. -/

namespace Sys2Proof.Machine

variable {F : Format}

theorem emaxField_pos (hF : 0 < F.ew) : 0 < emaxField F := by
  have : 2 ^ 1 ≤ 2 ^ F.ew := Nat.pow_le_pow_right (by omega) hF
  simp only [emaxField]; omega

theorem expField_le (x : BitVec F.w) : (expField F x).toNat ≤ emaxField F := by
  have := (expField F x).isLt
  simp only [emaxField]; omega

theorem classify_nan {x : BitVec F.w} :
    classify F x = .nan ↔ (expField F x).toNat = emaxField F ∧ (mantField F x).toNat ≠ 0 := by
  simp only [classify, classOf]; split_ifs <;> simp_all

theorem classify_inf {x : BitVec F.w} :
    classify F x = .inf ↔ (expField F x).toNat = emaxField F ∧ (mantField F x).toNat = 0 := by
  simp only [classify, classOf]; split_ifs <;> simp_all

theorem classify_zero (hF : 0 < F.ew) {x : BitVec F.w} :
    classify F x = .zero ↔ (expField F x).toNat = 0 ∧ (mantField F x).toNat = 0 := by
  have := emaxField_pos hF
  simp only [classify, classOf]; (split_ifs <;> simp_all); omega

theorem classify_subnormal (hF : 0 < F.ew) {x : BitVec F.w} :
    classify F x = .subnormal ↔ (expField F x).toNat = 0 ∧ (mantField F x).toNat ≠ 0 := by
  have := emaxField_pos hF
  simp only [classify, classOf]; (split_ifs <;> simp_all); omega

theorem classify_normal {x : BitVec F.w} :
    classify F x = .normal ↔
      (expField F x).toNat ≠ emaxField F ∧ (expField F x).toNat ≠ 0 := by
  simp only [classify, classOf]; split_ifs <;> simp_all

/-- The shift of a nonzero mantissa field moves its highest set bit to bit `MW` (R118). -/
theorem subnormalShift_spec {f : BitVec F.mw} (h : f.toNat ≠ 0) :
    F.ew < clz (f.setWidth F.w) ∧ 1 ≤ subnormalShift F f ∧ subnormalShift F f ≤ F.mw ∧
      2 ^ F.mw ≤ f.toNat * 2 ^ subnormalShift F f ∧
      f.toNat * 2 ^ subnormalShift F f < 2 ^ (F.mw + 1) := by
  have hw : F.w = 1 + F.ew + F.mw := rfl
  have hf := f.isLt
  have hz : (f.setWidth F.w).toNat = f.toNat := by
    rw [BitVec.toNat_setWidth, Nat.mod_eq_of_lt]
    exact Nat.lt_of_lt_of_le hf (Nat.pow_le_pow_right (by omega) (by omega))
  obtain ⟨h1, h2, h3⟩ := clz_bounds (v := f.setWidth F.w) (by omega)
  rw [hz] at h2 h3
  have h4 : F.w - 1 - clz (f.setWidth F.w) < F.mw :=
    (Nat.pow_lt_pow_iff_right (by omega : 1 < 2)).1 (Nat.lt_of_le_of_lt h2 hf)
  have hsh : subnormalShift F f = F.mw - (F.w - 1 - clz (f.setWidth F.w)) := by
    simp only [subnormalShift]; omega
  have e1 : 2 ^ F.mw = 2 ^ (F.w - 1 - clz (f.setWidth F.w)) * 2 ^ subnormalShift F f := by
    rw [← pow_add]; congr 1; omega
  have e2 : 2 ^ (F.mw + 1) = 2 ^ (F.w - clz (f.setWidth F.w)) * 2 ^ subnormalShift F f := by
    rw [← pow_add]; congr 1; omega
  refine ⟨by omega, by omega, by omega, ?_, ?_⟩
  · rw [e1]; exact Nat.mul_le_mul_right _ h2
  · rw [e2]; exact Nat.mul_lt_mul_of_pos_right h3 (by positivity)

theorem normShift_subnormal {x : BitVec F.w} (h : classify F x = .subnormal) :
    normShift F x = subnormalShift F (mantField F x) := by simp only [normShift, h]

theorem normShift_other {x : BitVec F.w} (h : classify F x ≠ .subnormal) : normShift F x = 0 := by
  cases hc : classify F x <;> simp_all [normShift]

theorem normExp_subnormal {x : BitVec F.w} (h : classify F x = .subnormal) :
    normExp F x = 1 - (bias F : Int) - normShift F x := by simp only [normExp, h]

theorem normExp_other {x : BitVec F.w} (h : classify F x ≠ .subnormal) :
    normExp F x = trueExp F x := by
  cases hc : classify F x <;> simp_all [normExp]

/-- The significand of a subnormal is its mantissa field, shifted (R118). -/
theorem significand_subnormal (hF : 0 < F.ew) {x : BitVec F.w} (h : classify F x = .subnormal) :
    (significand F x).toNat = (mantField F x).toNat * 2 ^ normShift F x := by
  have hm := ((classify_subnormal hF).1 h).2
  obtain ⟨-, -, -, -, hlt⟩ := subnormalShift_spec hm
  have hf := (mantField F x).isLt
  have h0 : (mantField F x).toNat % 2 ^ (F.mw + 1) = (mantField F x).toNat :=
    Nat.mod_eq_of_lt (Nat.lt_of_lt_of_le hf (Nat.pow_le_pow_right (by omega) (by omega)))
  rw [normShift_subnormal h]
  simp only [significand, h, BitVec.toNat_shiftLeft, BitVec.toNat_setWidth, Nat.shiftLeft_eq, h0,
    normShift_subnormal h]
  exact Nat.mod_eq_of_lt hlt

/-- The significand of a normal pattern is its mantissa field under the implicit bit (R119). -/
theorem significand_normal {x : BitVec F.w} (h : classify F x = .normal) :
    (significand F x).toNat = 2 ^ F.mw + (mantField F x).toNat := by
  have hf := (mantField F x).isLt
  have hp : 2 ^ (F.mw + 1) = 2 ^ F.mw * 2 := pow_succ 2 F.mw
  have h0 : (mantField F x).toNat % 2 ^ (F.mw + 1) = (mantField F x).toNat :=
    Nat.mod_eq_of_lt (by omega)
  have h1 : 2 ^ F.mw % 2 ^ (F.mw + 1) = 2 ^ F.mw := Nat.mod_eq_of_lt (by have := Nat.two_pow_pos F.mw; omega)
  simp only [significand, h, BitVec.toNat_or, BitVec.toNat_setWidth, BitVec.toNat_ofNat, implicitBit,
    Nat.shiftLeft_eq, Nat.one_mul, h0, h1]
  have := Nat.two_pow_add_eq_or_of_lt hf 1
  rw [Nat.mul_one] at this
  exact this.symm

/-- The significand of a finite nonzero pattern has its leading bit at bit `MW` (R145). -/
theorem significand_bounds (hF : 0 < F.ew) {x : BitVec F.w}
    (h : classify F x = .subnormal ∨ classify F x = .normal) :
    2 ^ F.mw ≤ (significand F x).toNat ∧ (significand F x).toNat < 2 ^ (F.mw + 1) := by
  refine ⟨?_, (significand F x).isLt⟩
  rcases h with h | h
  · rw [significand_subnormal hF h, normShift_subnormal h]
    exact (subnormalShift_spec ((classify_subnormal hF).1 h).2).2.2.2.1
  · rw [significand_normal h]; omega

end Sys2Proof.Machine
end

