-- ==== Sys2Proof/Laws/Listing.lean ====
section
/-! SUPPORT. Digits, names and fields read back, and the words of a line are its parts. -/

namespace Sys2Proof.Machine

/-! ### Digits -/

theorem readDigit_hexDigit {d : Nat} (h : d < 16) : readDigit (hexDigit d) = some d := by
  interval_cases d <;> decide

theorem readDigits_snoc (acc : Nat) (l : List Char) (c : Char) :
    readDigits acc (l ++ [c]) = (readDigits acc l).bind fun v => (readDigit c).map fun d => 16 * v + d := by
  induction l generalizing acc with
  | nil => cases h : readDigit c <;> simp [readDigits, h]
  | cons b l ih => cases h : readDigit b <;> simp [readDigits, h, ih]

@[simp] theorem length_hexDigits (n v : Nat) : (hexDigits n v).length = n := by
  induction n generalizing v with
  | zero => rfl
  | succ n ih => simp [hexDigits, ih]

/-- Printed digits read back as the number they show. -/
theorem readDigits_hexDigits (n v : Nat) : readDigits 0 (hexDigits n v) = some (v % 16 ^ n) := by
  induction n generalizing v with
  | zero => simp [hexDigits, readDigits, Nat.mod_one]
  | succ n ih =>
    rw [hexDigits, readDigits_snoc, ih, readDigit_hexDigit (Nat.mod_lt _ (by norm_num))]
    simp only [Option.bind_some, Option.map_some]
    congr 1
    rw [pow_succ, Nat.mul_comm (16 ^ n) 16, Nat.mod_mul]; omega

/-! ### Which characters a word holds -/

/-- A character that parts nothing: no blank, no dot, no semicolon. -/
def isInert (c : Char) : Bool := c != ' ' && c != '.' && c != ';'

theorem inert_of_letter_or_digit {c : Char} (h : (isLetter c || isDecimal c) = true) : isInert c = true := by
  have blank : (isLetter ' ' || isDecimal ' ') = false := by decide
  have dot : (isLetter '.' || isDecimal '.') = false := by decide
  have semi : (isLetter ';' || isDecimal ';') = false := by decide
  simp only [isInert, Bool.and_eq_true, bne_iff_ne]
  refine ⟨⟨?_, ?_⟩, ?_⟩ <;> rintro rfl <;> simp_all

theorem inert_of_name {n : Name} (h : isName n = true) : ∀ c ∈ n, isInert c = true := by
  cases n with
  | nil => simp [isName] at h
  | cons a l =>
    simp only [isName, Bool.and_eq_true, List.all_eq_true] at h
    intro c hc
    rcases List.mem_cons.1 hc with rfl | hc
    · exact inert_of_letter_or_digit (by simp [h.1])
    · exact inert_of_letter_or_digit (h.2 c hc)

theorem inert_hexDigits (n v : Nat) : ∀ c ∈ hexDigits n v, isInert c = true := by
  have digit (d : Nat) (h : d < 16) : isInert (hexDigit d) = true := by interval_cases d <;> decide
  induction n generalizing v with
  | zero => simp [hexDigits]
  | succ n ih =>
    intro c hc
    rcases List.mem_append.1 hc with hc | hc
    · exact ih _ c hc
    · rw [List.mem_singleton.1 hc]; exact digit _ (Nat.mod_lt _ (by norm_num))

/-! ### Operands -/

@[simp] theorem readField_print (f : Field) : readField f.print = some f := by cases f <;> decide

theorem readSource_pattern {count v : Nat} (h : v < 16 ^ count) :
    readSource (Source.pattern count v).print = some (.pattern count v) := by
  simp [readSource, Source.print, readDigits_hexDigits, Nat.mod_eq_of_lt h]

/-- A name does not begin as a pattern does. -/
theorem readSource_of_name {n : Name} (h : isName n = true) (rest : List Char) :
    readSource (n ++ rest) = readNamed (n ++ rest) := by
  cases n with
  | nil => simp [isName] at h
  | cons a l =>
    have ha : a ≠ '0' := by
      rintro rfl
      simp [isName, show isLetter '0' = false by decide] at h
    have : ¬ ((a :: l ++ rest).take 2 = ['0', 'x']) := by
      intro h2
      simp only [List.cons_append, List.take_succ_cons, List.cons.injEq] at h2
      exact ha h2.1
    rw [readSource, if_neg this]

theorem takeWhile_name {n : Name} (h : isName n = true) {c : Char} (rest : List Char)
    (hc : (isLetter c || isDecimal c) = false) :
    (n ++ c :: rest).takeWhile (fun d => d != c) = n ∧ (n ++ c :: rest).dropWhile (fun d => d != c) = c :: rest ∧
    n.takeWhile (fun d => d != c) = n ∧ n.dropWhile (fun d => d != c) = [] := by
  have all : ∀ d ∈ n, (d != c) = true := by
    intro d hd
    rw [bne_iff_ne]
    rintro rfl
    cases n with
    | nil => cases hd
    | cons a l =>
      simp only [isName, Bool.and_eq_true, List.all_eq_true] at h
      rcases List.mem_cons.1 hd with rfl | hd
      · simp [h.1] at hc
      · rw [h.2 d hd] at hc; cases hc
  refine ⟨?_, ?_, ?_, ?_⟩
  · rw [List.takeWhile_append_of_pos all]; simp
  · rw [List.dropWhile_append_of_pos all]; simp
  · simpa using all
  · simpa using all

/-- Every operand that can be written down reads back as itself. -/
theorem readSource_print {s : Source} (h : s.wellFormed = true) : readSource s.print = some s := by
  have dot : (isLetter '.' || isDecimal '.') = false := by decide
  cases s with
  | pattern count v => exact readSource_pattern (by simpa [Source.wellFormed] using h)
  | name n =>
    have hn : isName n = true := h
    have := readSource_of_name hn []
    rw [List.append_nil] at this
    obtain ⟨-, -, h3, h4⟩ := takeWhile_name hn [] dot
    simp only [Source.print, this, readNamed, h3, h4, hn, if_true]
  | field n f =>
    have hn : isName n = true := h
    obtain ⟨h1, h2, -, -⟩ := takeWhile_name hn f.print dot
    simp only [Source.print, readSource_of_name hn, readNamed, h1, h2, hn, if_true, readField_print, Option.map_some]

/-! ### Words -/

theorem partBlanks_ne_nil (cs : List Char) : partBlanks cs ≠ [] := by
  cases cs with
  | nil => simp [partBlanks]
  | cons c cs => simp only [partBlanks]; split <;> [simp; (split <;> simp)]

/-- A word and a blank part off. -/
theorem partBlanks_word {w : List Char} (h : ∀ c ∈ w, c ≠ ' ') (rest : List Char) :
    partBlanks (w ++ ' ' :: rest) = w :: partBlanks rest := by
  induction w with
  | nil =>
    obtain ⟨a, l, e⟩ := List.exists_cons_of_ne_nil (partBlanks_ne_nil rest)
    simp [partBlanks, e]
  | cons c w ih =>
    have hc : c ≠ ' ' := h c (by simp)
    rw [List.cons_append, partBlanks, ih fun d hd => h d (List.mem_cons_of_mem _ hd)]
    simp [hc]

/-- The last word. -/
theorem partBlanks_last {w : List Char} (h : ∀ c ∈ w, c ≠ ' ') : partBlanks w = [w] := by
  induction w with
  | nil => rfl
  | cons c w ih =>
    have hc : c ≠ ' ' := h c (by simp)
    rw [partBlanks, ih fun d hd => h d (List.mem_cons_of_mem _ hd)]
    simp [hc]

/-- Four words parted by blanks, with or without a comment after them, are these four words. -/
theorem words_of_four {a b c d : List Char}
    (h : ∀ w ∈ [a, b, c, d], w ≠ [] ∧ ∀ x ∈ w, x ≠ ' ' ∧ x ≠ ';') (comment : List Char) :
    words (a ++ ' ' :: (b ++ ' ' :: (c ++ ' ' :: d))) = [a, b, c, d] ∧
    words (a ++ ' ' :: (b ++ ' ' :: (c ++ ' ' :: d)) ++ ' ' :: ';' :: comment) = [a, b, c, d] := by
  simp only [List.mem_cons, List.not_mem_nil, or_false, forall_eq_or_imp, forall_eq] at h
  obtain ⟨⟨na, ha⟩, ⟨nb, hb⟩, ⟨nc, hc⟩, nd, hd⟩ := h
  have keep : ∀ x ∈ a ++ ' ' :: (b ++ ' ' :: (c ++ ' ' :: d)), (x != ';') = true := by
    intro x hx
    simp only [List.mem_append, List.mem_cons] at hx
    rw [bne_iff_ne]
    rcases hx with hx | rfl | hx | rfl | hx | rfl | hx
    · exact (ha x hx).2
    · decide
    · exact (hb x hx).2
    · decide
    · exact (hc x hx).2
    · decide
    · exact (hd x hx).2
  constructor
  · rw [words, List.takeWhile_eq_self_iff.2 keep, partBlanks_word fun x hx => (ha x hx).1,
      partBlanks_word fun x hx => (hb x hx).1, partBlanks_word fun x hx => (hc x hx).1,
      partBlanks_last fun x hx => (hd x hx).1]
    simp [na, nb, nc, nd]
  · rw [words, List.takeWhile_append_of_pos keep]
    simp only [List.takeWhile_cons, show (' ' != ';') = true by decide, show (';' != ';') = false by decide, if_true,
      Bool.false_eq_true, if_false, List.append_assoc, List.cons_append]
    rw [partBlanks_word fun x hx => (ha x hx).1, partBlanks_word fun x hx => (hb x hx).1,
      partBlanks_word fun x hx => (hc x hx).1, partBlanks_word fun x hx => (hd x hx).1]
    simp [partBlanks, na, nb, nc, nd]

/-! ### Operation names -/

/-- A code's mnemonic reads back as the code, whatever the operand. -/
@[simp] theorem readOp_mnemonicOf (names : Names) (src : Source) (op : OpCode) :
    readOp names src (mnemonicOf op) = some op := by
  have all : ∀ o : OpCode, o = 0b00#2 ∨ o = 0b01#2 ∨ o = 0b10#2 ∨ o = 0b11#2 := by decide
  rcases all op with rfl | rfl | rfl | rfl <;> rfl

end Sys2Proof.Machine
end

