-- ==== Sys2Proof/Laws/Nan.lean ====
section
/-! SUPPORT. The tests on NaN and invalid operands, the NaN patterns, and what the square root of each class is. -/

namespace Sys2Proof.Machine

variable {F : Format}

theorem isNan_iff {x : BitVec F.w} : isNan F x = true ↔ classify F x = .nan := by simp [isNan]

theorem isInvalid_iff {x : BitVec F.w} :
    isInvalid F x = true ↔
      signField F x = 1#1 ∧ (classify F x = .inf ∨ classify F x = .subnormal ∨ classify F x = .normal) := by
  cases h : classify F x <;> simp [isInvalid, h]

/-- Every choice names a NaN (R8). -/
theorem classify_nanOf (choice : BitVec 1 × Fin (2 ^ F.mw - 1)) : classify F (nanOf F choice) = .nan := by
  have h1 : (BitVec.ofNat F.ew (emaxField F)).toNat = emaxField F := by
    rw [BitVec.toNat_ofNat, Nat.mod_eq_of_lt]
    have := Nat.two_pow_pos F.ew
    simp only [emaxField]; omega
  have h2 : (BitVec.ofNat F.mw (choice.2.val + 1)).toNat = choice.2.val + 1 := by
    rw [BitVec.toNat_ofNat, Nat.mod_eq_of_lt]
    have := choice.2.isLt; omega
  rw [nanOf, classify_pack, classOf, if_pos h1, if_neg (by omega)]

/-- All that the square root of a pattern can be (R140). -/
theorem sqrt_cases (c : NanConfig F) (x : BitVec F.w) :
    (classify F x = .nan ∧ sqrt F c x = c.prop x) ∨
    (isInvalid F x = true ∧ sqrt F c x = c.inv x) ∨
    (classify F x = .zero ∧ sqrt F c x = x) ∨
    (classify F x = .inf ∧ signField F x = 0#1 ∧ sqrt F c x = x) ∨
    ((classify F x = .subnormal ∨ classify F x = .normal) ∧ signField F x = 0#1 ∧
      sqrt F c x = roundedRoot F x) := by
  have hs : signField F x = 0#1 ∨ signField F x = 1#1 := by
    generalize signField F x = s
    revert s
    decide
  rcases hs with hs | hs <;> cases h : classify F x <;> simp [sqrt, isInvalid, h, hs]

end Sys2Proof.Machine
end

