-- ==== Sys2Proof/WellFormed.lean ====
section
/-!
DEFINITION. Well-formed instructions. Spec: 30_encoding.md section 5 ("every term is well formed; there is no
refusal at any layer") and R65(b) (every pattern is a legal operand).

The operand's width is in the constructor's type, so nothing is left to check: the predicate is true of every
term, and there is no ill-formed term to refuse.
-/

namespace Sys2Proof

/-- Every instruction is well formed (30_encoding.md section 5). -/
def Instr.wellFormed : Instr → Bool
  | .sqrtS _ => true
  | .sqrtD _ => true
  | .decS _ => true
  | .decD _ => true

end Sys2Proof
end

