-- ==== Sys2Proof/Laws/PerInstr.lean ====
section
/-! SUPPORT. What holds of every instruction as syntax, one lemma per constructor. -/

namespace Sys2Proof.Laws.EncodesCanonically

/-- The instruction is well formed, and its encoding puts nothing on the half of the bus no `.S` operation
reads (30_encoding.md section 5, 20_memory.md R43(b)). -/
def Statement (i : Instr) : Prop := i.wellFormed = true ∧ (encode i).canonical = true

theorem upper_half_of_S_operand (x : BitVec 32) : (busOfS x).extractLsb' 32 32 = 0#32 := by
  apply BitVec.eq_of_getLsbD_eq
  intro i hi
  simp [busOfS, hi]

theorem sqrtS (x : BitVec 32) : Statement (.sqrtS x) := by
  refine ⟨rfl, ?_⟩
  simp [Request.canonical, encode, upper_half_of_S_operand]

theorem sqrtD (x : BitVec 64) : Statement (.sqrtD x) := ⟨rfl, by simp [Request.canonical, encode, opFmt]⟩

theorem decS (x : BitVec 32) : Statement (.decS x) := by
  refine ⟨rfl, ?_⟩
  simp [Request.canonical, encode, upper_half_of_S_operand]

theorem decD (x : BitVec 64) : Statement (.decD x) := ⟨rfl, by simp [Request.canonical, encode, opFmt]⟩

end Sys2Proof.Laws.EncodesCanonically
end

