-- ==== Sys2Proof/Laws/Sqrt.lean ====
section
/-!
SUPPORT. The digit recurrence: what one iteration can do, and the invariant of the loop, by induction on the
iterations (42_sqrt_algorithm.md R149).
-/

namespace Sys2Proof.Machine

/-- The working values after `k` iterations, against the radicand `N`. -/
structure Recurrence (mw N k : Nat) (w : Work) : Prop where
  s_eq : w.s = 2 * w.q
  r_eq : k ≤ mw + 1 → w.r = 2 ^ (mw + 1 - k)
  ix_eq : w.ix * 2 ^ (mw + 1) = (N - w.q ^ 2) * 2 ^ k
  sq_le : w.q ^ 2 ≤ N
  lt_sq : N < (w.q + 2 ^ (mw + 2 - k)) ^ 2
  dvd : 2 ^ (mw + 2 - k) ∣ w.q

theorem recurrence_start (F : Format) {sig2 : Nat} (h : sig2 < 2 ^ (F.mw + 2)) :
    Recurrence F.mw (sig2 * 2 ^ (F.mw + 2)) 0 (workStart F sig2) where
  s_eq := rfl
  r_eq _ := by simp [workStart, firstTrial, Nat.shiftLeft_eq]
  ix_eq := by simp [workStart, Nat.shiftLeft_eq]; ring
  sq_le := by simp [workStart]
  lt_sq := by
    simp only [workStart, Nat.zero_add, Nat.sub_zero, pow_two]
    exact Nat.mul_lt_mul_of_pos_right h (by positivity)
  dvd := by simp [workStart]

/-- One iteration sets the next bit of the root exactly when the root with that bit still fits. -/
theorem recurrence_step {mw N k : Nat} {w : Work} (hk : k ≤ mw + 1) (h : Recurrence mw N k w) :
    Recurrence mw N (k + 1) (workStep w) := by
  obtain ⟨hs, hr, hix, hle, hlt, hdvd⟩ := h
  have hr := hr hk
  have hpow : 2 ^ (mw + 1 - k) * 2 ^ k = 2 ^ (mw + 1) := by rw [← pow_add]; congr 1; omega
  have hB : 2 ^ (mw + 2 - k) = 2 * w.r := by
    rw [hr, show mw + 2 - k = mw + 1 - k + 1 by omega, pow_succ, Nat.mul_comm]
  have hB' : 2 ^ (mw + 2 - (k + 1)) = w.r := by rw [hr, show mw + 2 - (k + 1) = mw + 1 - k by omega]
  have hpos : 0 < 2 ^ k := by positivity
  have hfit : w.s + w.r ≤ w.ix ↔ (w.q + w.r) ^ 2 ≤ N := by
    have key : w.ix * (w.r * 2 ^ k) = (N - w.q ^ 2) * 2 ^ k := by rw [hr, hpow]; exact hix
    have key' : w.ix * w.r = N - w.q ^ 2 := by
      apply Nat.eq_of_mul_eq_mul_right hpos; rw [Nat.mul_assoc]; exact key
    have hrpos : 0 < w.r := by rw [hr]; positivity
    have e : (w.q + w.r) ^ 2 = w.q ^ 2 + (w.s + w.r) * w.r := by rw [hs]; ring
    rw [e]
    constructor
    · intro hf
      have := Nat.mul_le_mul_right w.r hf
      omega
    · intro hf
      exact Nat.le_of_mul_le_mul_right (by omega : (w.s + w.r) * w.r ≤ w.ix * w.r) hrpos
  have hshift : k + 1 ≤ mw + 1 → w.r >>> 1 = 2 ^ (mw + 1 - (k + 1)) := by
    intro hk'
    rw [hr, Nat.shiftRight_eq_div_pow, show mw + 1 - k = mw + 1 - (k + 1) + 1 by omega, pow_succ]
    simp
  by_cases hc : w.s + w.r ≤ w.ix
  · have hsq := hfit.1 hc
    rw [workStep, if_pos hc]
    constructor
    · simp only [hs]; omega
    · exact hshift
    · simp only [Nat.shiftLeft_eq, pow_one]
      have e : (w.q + w.r) ^ 2 = w.q ^ 2 + (w.s + w.r) * w.r := by rw [hs]; ring
      have h1 : (w.s + w.r) * 2 ^ (mw + 1) = (w.s + w.r) * w.r * 2 ^ k := by
        rw [Nat.mul_assoc, hr, hpow]
      calc (w.ix - (w.s + w.r)) * 2 * 2 ^ (mw + 1)
          = (w.ix * 2 ^ (mw + 1) - (w.s + w.r) * 2 ^ (mw + 1)) * 2 := by rw [← Nat.sub_mul]; ring
        _ = ((N - w.q ^ 2) * 2 ^ k - (w.s + w.r) * w.r * 2 ^ k) * 2 := by rw [hix, h1]
        _ = (N - (w.q + w.r) ^ 2) * 2 ^ (k + 1) := by
          rw [← Nat.sub_mul, e, Nat.sub_sub, pow_succ]; ring
    · exact hsq
    · simp only [hB']; rw [hB] at hlt
      calc N < (w.q + 2 * w.r) ^ 2 := hlt
        _ = (w.q + w.r + w.r) ^ 2 := by ring
    · simp only [hB']
      rw [hB] at hdvd
      exact Nat.dvd_add (Nat.dvd_trans (Nat.dvd_mul_left _ _) hdvd) (Nat.dvd_refl _)
  · have hsq : N < (w.q + w.r) ^ 2 := by
      by_contra hn; exact hc (hfit.2 (Nat.le_of_not_lt hn))
    rw [workStep, if_neg hc]
    constructor
    · exact hs
    · exact hshift
    · simp only [Nat.shiftLeft_eq, pow_one]
      rw [show w.ix * 2 * 2 ^ (mw + 1) = w.ix * 2 ^ (mw + 1) * 2 by ring, hix, pow_succ]; ring
    · exact hle
    · simp only [hB']; exact hsq
    · simp only [hB']
      rw [hB] at hdvd
      exact Nat.dvd_trans (Nat.dvd_mul_left _ _) hdvd

/-- The invariant holds after every iteration the engine runs. -/
theorem recurrence_run (F : Format) {sig2 : Nat} (h : sig2 < 2 ^ (F.mw + 2)) {k : Nat}
    (hk : k ≤ niter F) :
    Recurrence F.mw (sig2 * 2 ^ (F.mw + 2)) k (workRun (workStart F sig2) k) := by
  induction k with
  | zero => exact recurrence_start F h
  | succ k ih =>
    have : k ≤ F.mw + 1 := by unfold niter at hk; omega
    exact recurrence_step this (ih (by omega))

/-- After the last iteration the root is the integer square root, and the remainder twice what is left. -/
theorem recurrence_end (F : Format) {sig2 : Nat} (h : sig2 < 2 ^ (F.mw + 2)) :
    (workRun (workStart F sig2) (niter F)).q = Nat.sqrt (sig2 * 2 ^ (F.mw + 2)) ∧
      (workRun (workStart F sig2) (niter F)).ix =
        2 * (sig2 * 2 ^ (F.mw + 2) - Nat.sqrt (sig2 * 2 ^ (F.mw + 2)) ^ 2) := by
  obtain ⟨-, -, hix, hle, hlt, -⟩ := recurrence_run F h (Nat.le_refl (niter F))
  generalize workRun (workStart F sig2) (niter F) = w at *
  have hq : w.q = Nat.sqrt (sig2 * 2 ^ (F.mw + 2)) := by
    simp only [niter, Nat.sub_self, pow_zero] at hlt
    exact Nat.eq_sqrt'.2 ⟨hle, hlt⟩
  refine ⟨hq, ?_⟩
  rw [hq] at hix
  apply Nat.eq_of_mul_eq_mul_right (show 0 < 2 ^ (F.mw + 1) by positivity)
  rw [hix, niter, show F.mw + 2 = F.mw + 1 + 1 by omega, pow_succ]; ring

end Sys2Proof.Machine
end

