-- ==== Sys2Proof/Laws/Root.lean ====
section
/-!
SUPPORT. The exponent and significand the recurrence is started on, what the loop and the rounding leave, and the
fields of the packed root.
-/

namespace Sys2Proof.Machine

variable {F : Format}

theorem emaxField_eq_two_bias (hF : 1 < F.ew) : emaxField F = 2 * bias F + 1 ∧ 0 < bias F := by
  obtain ⟨n, hn⟩ : ∃ n, F.ew = n + 2 := ⟨F.ew - 2, by omega⟩
  have h1 : 2 ^ (n + 2) = 2 * 2 ^ (n + 1) := by rw [pow_succ]; ring
  have h2 : 2 ^ (n + 1) = 2 * 2 ^ n := by rw [pow_succ]; ring
  have := Nat.two_pow_pos n
  simp only [emaxField, bias, hn]
  simp; omega

theorem normExp_range (hF : 1 < F.ew) {x : BitVec F.w} (h : classify F x = .subnormal ∨ classify F x = .normal) :
    1 - (bias F : Int) - F.mw ≤ normExp F x ∧ normExp F x ≤ bias F := by
  obtain ⟨hb, hb0⟩ := emaxField_eq_two_bias hF
  rcases h with h | h
  · have := subnormalShift_spec ((classify_subnormal (by omega)).1 h).2
    rw [normExp_subnormal h, normShift_subnormal h]; omega
  · have := classify_normal.1 h
    have := expField_le x
    rw [normExp_other (by rw [h]; decide), trueExp]; omega

theorem paritySig_bounds (hF : 1 < F.ew) {x : BitVec F.w} (h : classify F x = .subnormal ∨ classify F x = .normal) :
    2 ^ F.mw ≤ paritySig (significand F x).toNat (normExp F x) ∧
    paritySig (significand F x).toNat (normExp F x) ≤ 2 ^ (F.mw + 2) - 2 := by
  obtain ⟨h1, h2⟩ := significand_bounds (by omega) h
  have hp : 2 ^ (F.mw + 2) = 4 * 2 ^ F.mw := by rw [pow_add]; ring
  have hp1 : 2 ^ (F.mw + 1) = 2 * 2 ^ F.mw := by rw [pow_add]; ring
  have hpos := Nat.two_pow_pos F.mw
  simp only [paritySig, Nat.shiftLeft_eq, pow_one]
  split_ifs <;> omega

/-- What the loop ends with, and what rounding makes of it, in integers. -/
theorem loop_end_and_rounding (F : Format) {sig2 : Nat} (h1 : 2 ^ F.mw ≤ sig2) (h2 : sig2 ≤ 2 ^ (F.mw + 2) - 2) :
    let N := sig2 * 2 ^ (F.mw + 2)
    let w := workRun (workStart F sig2) (niter F)
    w.q ^ 2 ≤ N ∧ N < (w.q + 1) ^ 2 ∧ w.ix = 2 * (N - w.q ^ 2) ∧ (w.ix = 0 → w.q % 2 = 0) ∧
    2 * 2 ^ F.mw ≤ w.q ∧ w.q ≤ 2 ^ (F.mw + 2) - 2 ∧ roundRoot w >>> 1 = (w.q + w.q % 2) / 2 := by
  intro N w
  have hp : 2 ^ (F.mw + 2) = 4 * 2 ^ F.mw := by rw [pow_add]; ring
  have hpos := Nat.two_pow_pos F.mw
  obtain ⟨e1, e2⟩ := recurrence_end F (show sig2 < 2 ^ (F.mw + 2) by omega)
  have hq : w.q = Nat.sqrt N := e1
  have hix : w.ix = 2 * (N - w.q ^ 2) := by rw [hq]; exact e2
  have hle : w.q ^ 2 ≤ N := by rw [hq]; exact Nat.sqrt_le' N
  have hlt : N < (w.q + 1) ^ 2 := by rw [hq]; exact Nat.lt_succ_sqrt' N
  have hN : N = sig2 * (4 * 2 ^ F.mw) := by rw [← hp]
  have heven : w.ix = 0 → w.q % 2 = 0 := by
    intro h0
    have hsq : N = w.q ^ 2 := by omega
    have h4 : w.q ^ 2 % 2 = 0 := by
      rw [← hsq, hN, show sig2 * (4 * 2 ^ F.mw) = 2 * (sig2 * 2 * 2 ^ F.mw) by ring]; omega
    rcases Nat.mod_two_eq_zero_or_one w.q with h | h
    · exact h
    · rw [Nat.pow_mod, h] at h4; simp at h4
  have hlow : 2 * 2 ^ F.mw ≤ w.q := by
    by_contra hc
    have h5 : (w.q + 1) ^ 2 ≤ (2 * 2 ^ F.mw) ^ 2 := Nat.pow_le_pow_left (by omega) 2
    have h6 : (2 * 2 ^ F.mw) ^ 2 ≤ N := by
      rw [hN]
      calc (2 * 2 ^ F.mw) ^ 2 = 2 ^ F.mw * (4 * 2 ^ F.mw) := by ring
        _ ≤ _ := Nat.mul_le_mul_right _ h1
    omega
  have hhigh : w.q ≤ 2 ^ (F.mw + 2) - 2 := by
    by_contra hc
    have h5 : (4 * 2 ^ F.mw - 1) ^ 2 ≤ w.q ^ 2 := Nat.pow_le_pow_left (by omega) 2
    have h6 : N ≤ (4 * 2 ^ F.mw - 2) * (4 * 2 ^ F.mw) := by rw [hN]; exact Nat.mul_le_mul_right _ (by omega)
    obtain ⟨P, hP⟩ : ∃ P, 4 * 2 ^ F.mw = P + 2 := ⟨4 * 2 ^ F.mw - 2, by omega⟩
    rw [hP] at h5 h6
    have h7 : (P + 2 - 1) ^ 2 = P * P + 2 * P + 1 := by rw [show P + 2 - 1 = P + 1 by omega]; ring
    have h8 : (P + 2 - 2) * (P + 2) = P * P + 2 * P := by rw [show P + 2 - 2 = P by omega]; ring
    omega
  refine ⟨hle, hlt, hix, heven, hlow, hhigh, ?_⟩
  rw [Nat.shiftRight_eq_div_pow, pow_one]
  by_cases h0 : w.ix = 0
  · rw [roundRoot, if_neg (not_not.2 h0), heven h0]; rfl
  · rw [roundRoot, if_pos h0, Nat.and_one_is_mod]

/-- The fields of the root of a positive operand, and that its exponent is never adjusted (R151, R153(c)). -/
theorem roundedRoot_fields (hF : 1 < F.ew) (hbm : F.mw + 1 < bias F) {x : BitVec F.w}
    (h : classify F x = .subnormal ∨ classify F x = .normal) :
    let e := halfExp (normExp F x) + bias F
    let Q := roundRoot (rootWork F x) >>> 1
    1 ≤ e ∧ e < 2 * bias F ∧ 2 ^ F.mw ≤ Q ∧ Q < 2 ^ (F.mw + 1) ∧
    signField F (roundedRoot F x) = 0#1 ∧ ((expField F (roundedRoot F x)).toNat : Int) = e ∧
    (mantField F (roundedRoot F x)).toNat + 2 ^ F.mw = Q := by
  intro e Q
  obtain ⟨hb, hb0⟩ := emaxField_eq_two_bias hF
  obtain ⟨s1, s2⟩ := paritySig_bounds hF h
  obtain ⟨-, -, -, -, g1, g2, g3⟩ := loop_end_and_rounding F s1 s2
  obtain ⟨n1, n2⟩ := normExp_range hF h
  change 2 * 2 ^ F.mw ≤ (rootWork F x).q at g1
  change (rootWork F x).q ≤ 2 ^ (F.mw + 2) - 2 at g2
  change Q = ((rootWork F x).q + (rootWork F x).q % 2) / 2 at g3
  have hp : 2 ^ (F.mw + 2) = 4 * 2 ^ F.mw := by rw [pow_add]; ring
  have hp1 : 2 ^ (F.mw + 1) = 2 * 2 ^ F.mw := by rw [pow_add]; ring
  have hpos := Nat.two_pow_pos F.mw
  have hlo : 1 ≤ e := by show 1 ≤ normExp F x / 2 + bias F; omega
  have hhi : e < 2 * bias F := by show normExp F x / 2 + bias F < 2 * bias F; omega
  have hE : 2 ^ F.ew = 2 * bias F + 2 := by
    have := Nat.two_pow_pos F.ew
    simp only [emaxField] at hb; omega
  have hQ1 : 2 ^ F.mw ≤ Q := by omega
  refine ⟨hlo, hhi, hQ1, by omega, by rw [roundedRoot, signField_pack], ?_, ?_⟩
  · have hm : e % ((2 ^ F.ew : Nat) : Int) = e := Int.emod_eq_of_lt (by omega) (by rw [hE]; push_cast; omega)
    rw [roundedRoot, expField_pack, BitVec.toNat_ofInt]
    show ((e % ((2 ^ F.ew : Nat) : Int)).toNat : Int) = e
    rw [hm]; omega
  · rw [roundedRoot, mantField_pack, BitVec.toNat_ofNat]
    show Q % 2 ^ F.mw + 2 ^ F.mw = Q
    rw [Nat.mod_eq_sub_mod hQ1, Nat.mod_eq_of_lt (by omega)]; omega

end Sys2Proof.Machine
end

