-- ==== Sys2Proof/Laws/State.lean ====
section
/-! SUPPORT. One lemma per field per update of the transaction, and what each operation on it can do. -/

namespace Sys2Proof.Machine

@[simp] theorem reset_requests : State.reset.requests = [] := rfl
@[simp] theorem reset_responses : State.reset.responses = [] := rfl

@[simp] theorem answered_requests (s : State) (y : Response) : (s.answered y).requests = s.requests := rfl
@[simp] theorem answered_responses (s : State) (y : Response) :
    (s.answered y).responses = s.responses ++ [y] := rfl

@[simp] theorem withNextRequest_requests (s : State) (r : Request) :
    (s.withNextRequest r).requests = r :: s.requests.tail := rfl
@[simp] theorem withNextRequest_responses (s : State) (r : Request) :
    (s.withNextRequest r).responses = s.responses := rfl

/-- All that giving a response can do. -/
theorem respond_eq (y : Response) (s : State) : respond y s = .next (s.answered y) := rfl

/-- All that taking a request can do: it takes the oldest one and leaves the responses alone. -/
theorem takeRequest_cases (s : State) :
    (s.requests = [] ∧ takeRequest s = none) ∨
      ∃ r rest, s.requests = r :: rest ∧
        takeRequest s = some (r, { requests := rest, responses := s.responses }) := by
  obtain ⟨requests, responses⟩ := s
  cases requests with
  | nil => exact .inl ⟨rfl, rfl⟩
  | cons r rest => exact .inr ⟨r, rest, rfl, rfl⟩

end Sys2Proof.Machine
end

