-- ==== Sys2Proof/Laws/Step.lean ====
section
/-! SUPPORT. What one instruction and one step can do, said once. -/

namespace Sys2Proof.Machine

/-- Every instruction gives its answer and does nothing else. -/
theorem exec_eq_respond_answer (i : Instr) (s : State) : exec i s = respond (answer i) s := by
  cases i <;> rfl

/-- All that a step can do. -/
theorem step_cases (s : State) :
    (s.requests = [] ∧ step s = .next s) ∨
      ∃ r rest, s.requests = r :: rest ∧
        step s = exec (decode r) { requests := rest, responses := s.responses } := by
  obtain ⟨h, ht⟩ | ⟨r, rest, h, ht⟩ := takeRequest_cases s
  · exact .inl ⟨h, by simp only [step, ht, idle]⟩
  · exact .inr ⟨r, rest, h, by simp only [step, ht]⟩

end Sys2Proof.Machine
end

