-- ==== Sys2Proof/Laws/Value.lean ====
section
/-! SUPPORT. The value of a finite nonzero pattern through its normalised significand. -/

namespace Sys2Proof.Machine

variable {F : Format}

/-- Either finite class has the one value formula (R118, R119). -/
theorem value_of_significand (hF : 1 < F.ew) {x : BitVec F.w}
    (h : classify F x = .subnormal ∨ classify F x = .normal) :
    valueOf F x =
      .finite (signFactor (signField F x) * (((significand F x).toNat : ℚ) / 2 ^ F.mw) * 2 ^ normExp F x) := by
  rcases h with h | h
  · simp only [valueOf, h, FpValue.finite.injEq]
    rw [significand_subnormal (by omega) h, normExp_subnormal h, zpow_sub₀ (by norm_num) _ (normShift F x : ℤ),
      zpow_natCast]
    push_cast
    have : (2 : ℚ) ^ normShift F x ≠ 0 := by positivity
    field_simp
  · simp only [valueOf, h, FpValue.finite.injEq]
    rw [significand_normal h, normExp_other (by rw [h]; decide), trueExp]
    push_cast
    rw [add_div, div_self (by positivity)]

end Sys2Proof.Machine
end

