-- ==== Sys2Proof/Tests/Slice0.lean ====
section
/-!
SUPPORT. The model's own tests, and a witness for the hypotheses of every statement that has some.

Expected results are the spec's: the words of 30_encoding.md R64 and R67, the tables of 95_test_vectors.md
parts 2.1 to 2.7, the listings of R67. NaN results are tested for their class only.
-/

namespace Sys2Proof.Tests

open Sys2Proof Sys2Proof.Machine

/-! ### Well-formedness

No term of `Instr` is ill-formed (30_encoding.md section 5), so there is none for the predicate to refuse. What can
be ill-formed is a request that carries something the block ignores, and `Request.canonical` refuses it. -/

theorem test_every_operand_is_well_formed :
    Instr.wellFormed (.sqrtS 0xFFFFFFFF#32) = true ∧ Instr.wellFormed (.decD 0#64) = true := by decide

theorem test_noise_above_an_S_operand_is_not_canonical :
    Request.canonical { op := 0b00#2, a := 0xDEADBEEF40000000#64 } = false ∧
    Request.canonical { op := 0b10#2, a := 0x0000000100000000#64 } = false ∧
    Request.canonical { op := 0b00#2, a := 0x00000000FFFFFFFF#64 } = true ∧
    Request.canonical { op := 0b01#2, a := 0xDEADBEEF40000000#64 } = true := by decide

/-! ### Decoding: the codes of R64 bit by bit, and the line encoded in R67 -/

theorem test_decode_sqrtS : decode { op := 0b00#2, a := 0xDEADBEEF40000000#64 } = .sqrtS 0x40000000#32 := by decide

theorem test_decode_sqrtD :
    decode { op := 0b01#2, a := 0x4000000000000000#64 } = .sqrtD 0x4000000000000000#64 := by decide

theorem test_decode_decS : decode { op := 0b10#2, a := 0x1234567800000001#64 } = .decS 0x00000001#32 := by decide

theorem test_decode_decD :
    decode { op := 0b11#2, a := 0x1234567800000001#64 } = .decD 0x1234567800000001#64 := by decide

theorem test_encode_line_of_R67 : encode (.sqrtS 0x40000000#32) = { op := 0b00#2, a := 0x40000000#64 } := by decide

theorem test_bare_table_rows :
    decodeTableWord 8 0b00 = some (.sqrtS 0#32) ∧ decodeTableWord 8 0b01 = some (.sqrtD 0#64) ∧
    decodeTableWord 8 0b10 = some (.decS 0#32) ∧ decodeTableWord 8 0b11 = some (.decD 0#64) := by decide

/-- The operand word counts on from bit 2 (log entry 6): 5.0 above the code of `SQRT.S`. -/
theorem test_table_word_with_operand :
    decodeTableWord 72 (0x40A00000 * 4 + 0b00) = some (.sqrtS 0x40A00000#32) := by decide

/-- The line of R67, and line 2 of program P2. -/
theorem test_listing :
    String.ofList (listing ['t', '1'] (.sqrtS 0x40000000#32)) = "t1 = SQRT.S 0x40000000" ∧
    String.ofList (Line.print { dst := ['t', '1'], op := 0b01#2, src := .name ['t', '0'] }) = "t1 = SQRT.D t0" := by
  decide

/-- Line 1 of program P1 with its comment. -/
theorem test_line_with_comment :
    readLine [] "t0 = SQRT.S 0x41C80000 ; 25.0".toList =
      some { dst := ['t', '0'], op := 0b00#2, src := .pattern 8 0x41C80000 } := by decide

/-- An operand of seven digits, one without `0x`, one of the wrong width, a decimal literal, a small mnemonic, a name
not given to anything, and a line without its `<dst>`. -/
theorem test_bad_lines_are_refused :
    assemble [] "SQRT.S".toList "0x4000000".toList = none ∧ assemble [] "SQRT.S".toList "40000000".toList = none ∧
    assemble [] "SQRT.D".toList "0x40000000".toList = none ∧ assemble [] "SQRT.S".toList "2.0".toList = none ∧
    assemble [] "sqrt.s".toList "0x40000000".toList = none ∧ assemble [] "SQRT.S".toList "t0".toList = none ∧
    readLine [] "SQRT.S 0x40000000".toList = none := by decide

/-- Program P3: the record of 2^-149 has the odd exponent that makes the root's exponent field 52 (a field presented as
an operand is the host's pattern for its number). -/
theorem test_names_and_fields :
    performListing [] ["d0 = DEC.S 0x00000001".toList, "d1 = DEC.S 0x1A3504F3".toList, "d2 = DEC.S d1.efield".toList] =
      some [(['d', '2'], .decS (decompose fmtS 52#32)), (['d', '1'], .decS (decompose fmtS 0x1A3504F3#32)),
        (['d', '0'], .decS (decompose fmtS 1#32))] := by decide

/-! ### The operations (95_test_vectors.md parts 2.1 to 2.4) -/

/-- Part 2.1: a negative subnormal shifts as the positive one does (D11). -/
theorem test_decS_negative_subnormal :
    decompose fmtS 0x80000001#32 =
      { sign := 1#1, efield := 0#8, mfield := 1#23, cls := .subnormal, uexp := -127, sh := 23, nexp := -149,
        sig := 0x800000#24 } := by decide

/-- Part 2.1: `efield` 254 is normal (C1). -/
theorem test_decS_largest_finite :
    decompose fmtS 0xFF7FFFFF#32 =
      { sign := 1#1, efield := 254#8, mfield := 0x7FFFFF#23, cls := .normal, uexp := 127, sh := 0, nexp := 127,
        sig := 0xFFFFFF#24 } := by decide

/-- Part 2.2. -/
theorem test_decD_subnormal :
    decompose fmtD 0x0000000000000003#64 =
      { sign := 0#1, efield := 0#11, mfield := 3#52, cls := .subnormal, uexp := -1023, sh := 51, nexp := -1073,
        sig := 0x18000000000000#53 } := by decide

/-- Part 2.2: a NaN keeps its payload, bit `MW` clear. -/
theorem test_decD_nan :
    decompose fmtD 0xFFF8000000000000#64 =
      { sign := 1#1, efield := 2047#11, mfield := 0x8000000000000#52, cls := .nan, uexp := 1024, sh := 0,
        nexp := 1024, sig := 0x08000000000000#53 } := by decide

/-- Part 2.5: 5.0, which 24 iterations get wrong (C3). -/
theorem test_sqrtS_five : sqrt fmtS blockNanS 0x40A00000#32 = 0x400F1BBD#32 := by rfl

/-- Part 2.3: 3 * 2^-149, a subnormal with an odd negative exponent. -/
theorem test_sqrtS_subnormal : sqrt fmtS blockNanS 0x00000003#32 = 0x1A9CC471#32 := by rfl

set_option maxRecDepth 8192 in
/-- Part 2.5: 2.0, which 53 iterations get wrong. -/
theorem test_sqrtD_two : sqrt fmtD blockNanD 0x4000000000000000#64 = 0x3FF6A09E667F3BCD#64 := by rfl

set_option maxRecDepth 8192 in
/-- Part 2.4. -/
theorem test_sqrtD_subnormal : sqrt fmtD blockNanD 0x0000000000000003#64 = 0x1E6BB67AE8584CAA#64 := by rfl

/-- 43_sqrt_s.md section 2: 5.0 when the loop ends; its section 3: 2.0 after the iteration of row 13. -/
theorem test_working_values :
    rootWork fmtS 0x40A00000#32 = { ix := 0x33D919E, s := 2 * 0x11E3779, q := 0x11E3779, r := 0 } ∧
    workRun (workStart fmtS 0x1000000) 14 = { ix := 0x157F000, s := 0x2D41000, q := 0x16A0800, r := 0x400 } := by
  decide

set_option maxRecDepth 8192 in
/-- Part 2.7: one step answers the request; the upper half of the bus is noise. -/
theorem test_step_answers :
    step { requests := [{ op := 0b00#2, a := 0xFFFFFFFF41C80000#64 }], responses := [] } =
      .next { requests := [], responses := [.sqrtS 0x40A00000#32] } ∧
    (Response.sqrtS 0x40A00000#32).bus = some 0x0000000040A00000#64 := ⟨rfl, rfl⟩

theorem test_step_without_request_idles : step State.reset = .next State.reset := rfl

/-- A table word presented after reset runs as the first instruction. -/
theorem test_presented_word_runs_first :
    step (State.reset.withFetchWord 8 0b10) =
      .next { requests := [], responses := [.decS (decompose fmtS 0#32)] } := rfl

/-! ### Witnesses

For each statement with hypotheses, concrete states and operands that meet them together; for one of several
clauses, a witness for each clause, at the ends of its range. A hypothesis that only picks a format is met by both
formats, and the witnesses are given at either. -/

/-- The fields of a pattern as numbers, for writing witnesses down. -/
def fieldsOf (F : Format) (x : BitVec F.w) : Nat × Nat × Nat :=
  ((signField F x).toNat, (expField F x).toNat, (mantField F x).toNat)

/-- A configuration of the NaN parameters that R8 allows: always the same NaN. -/
def oneNanS : NanConfig fmtS := { prop := fun _ => 0x7FC00000#32, inv := fun _ => 0x7FC00000#32 }

/-- Another, with the sign set. -/
def otherNanS : NanConfig fmtS := { prop := fun _ => 0xFF800001#32, inv := fun _ => 0xFF800001#32 }

theorem witness_formats : (fmtS = fmtS ∨ fmtS = fmtD) ∧ (fmtD = fmtS ∨ fmtD = fmtD) := ⟨.inl rfl, .inr rfl⟩

theorem witness_NanOk : NanOk oneNanS ∧ NanOk otherNanS :=
  have h : isNan fmtS 0x7FC00000#32 = true := by decide
  have h' : isNan fmtS 0xFF800001#32 = true := by decide
  ⟨⟨fun _ _ => h, fun _ _ => h⟩, fun _ _ => h', fun _ _ => h'⟩

/-- ValueFollowsTheClassTable, ClassIsDecidedByExponentAndMantissa: each row, at the ends of its range. -/
theorem witness_class_table :
    fieldsOf fmtS 0x80000000#32 = (1, 0, 0) ∧
    fieldsOf fmtS 0x00000001#32 = (0, 0, 1) ∧ fieldsOf fmtS 0x807FFFFF#32 = (1, 0, 2 ^ 23 - 1) ∧
    fieldsOf fmtS 0x00800000#32 = (0, 1, 0) ∧ fieldsOf fmtS 0x7F7FFFFF#32 = (0, 2 ^ 8 - 2, 2 ^ 23 - 1) ∧
    fieldsOf fmtS 0xFF800000#32 = (1, 2 ^ 8 - 1, 0) ∧ fieldsOf fmtS 0x7F800001#32 = (0, 2 ^ 8 - 1, 1) ∧
    fieldsOf fmtD 0x7FEFFFFFFFFFFFFF#64 = (0, 2 ^ 11 - 2, 2 ^ 52 - 1) ∧
    fieldsOf fmtD 0x0000000000000001#64 = (0, 0, 1) := by decide

/-- ValueFollowsTheClassTable, RootIsCorrectlyRounded: positive finite values. -/
theorem witness_positive_value :
    (∃ v, valueOf fmtS 0x00000001#32 = .finite v ∧ 0 < v) ∧ ∃ v, valueOf fmtD 0x0000000000000001#64 = .finite v ∧ 0 < v := by
  constructor
  · refine ⟨_, rfl, ?_⟩
    rw [show mantField fmtS 0x00000001#32 = 1#23 from by decide, show signField fmtS 0x00000001#32 = 0#1 from by decide]
    norm_num [signFactor]
    positivity
  · refine ⟨_, rfl, ?_⟩
    rw [show mantField fmtD 0x0000000000000001#64 = 1#52 from by decide,
      show signField fmtD 0x0000000000000001#64 = 0#1 from by decide]
    norm_num [signFactor]
    positivity

/-- NormalExponentRange, NormalGetsItsImplicitBit: the smallest and the largest normal patterns. -/
theorem witness_normal :
    classify fmtS 0x00800000#32 = .normal ∧ classify fmtS 0x7F7FFFFF#32 = .normal ∧
    classify fmtD 0x0010000000000000#64 = .normal ∧ classify fmtD 0xFFEFFFFFFFFFFFFF#64 = .normal ∧
    (decompose fmtS 0x00800000#32).cls = .normal ∧ (decompose fmtD 0x7FEFFFFFFFFFFFFF#64).cls = .normal := by decide

/-- ValueOrderIsUnsignedOrder: +0 and the smallest subnormal, and +infinity. -/
theorem witness_order :
    signField fmtS 0x00000000#32 = 0#1 ∧ signField fmtS 0x00000001#32 = 0#1 ∧
    (∃ u, (valueOf fmtS 0x00000000#32).rat? = some u) ∧ (∃ v, (valueOf fmtS 0x00000001#32).rat? = some v) ∧
    signField fmtS (expMask fmtS) = 0#1 ∧ valueOf fmtS (expMask fmtS) = .inf false :=
  ⟨by decide, by decide, ⟨_, rfl⟩, ⟨_, rfl⟩, by decide, rfl⟩

/-- ClassIsDecidedByExponentAndMantissa: two patterns that differ in the sign only. -/
theorem witness_same_fields :
    expField fmtS 0x80000001#32 = expField fmtS 0x00000001#32 ∧
    mantField fmtS 0x80000001#32 = mantField fmtS 0x00000001#32 := by decide

/-- TrueExponentAndItsSentinels: neither sentinel, at both ends. -/
theorem witness_no_sentinel :
    (expField fmtS 0x00800000#32).toNat ≠ 0 ∧ (expField fmtS 0x00800000#32).toNat ≠ 2 ^ 8 - 1 ∧
    (expField fmtD 0x7FEFFFFFFFFFFFFF#64).toNat ≠ 0 ∧ (expField fmtD 0x7FEFFFFFFFFFFFFF#64).toNat ≠ 2 ^ 11 - 1 := by
  decide

/-- SubnormalIsRenormalised, RecordLaws: the smallest and the largest subnormal, of either sign. -/
theorem witness_subnormal :
    (decompose fmtS 0x00000001#32).cls = .subnormal ∧ signField fmtS 0x00000001#32 = 0#1 ∧
    (decompose fmtS 0x807FFFFF#32).cls = .subnormal ∧ (decompose fmtS 0x807FFFFF#32).sh ≠ 0 ∧
    (decompose fmtD 0x0000000000000001#64).cls = .subnormal ∧
    (decompose fmtD 0x000FFFFFFFFFFFFF#64).cls = .subnormal := by decide

/-- OtherClassesKeepTheirField: each of the three classes. -/
theorem witness_other_classes :
    (decompose fmtS 0x80000000#32).cls = .zero ∧ (decompose fmtS 0x7F800000#32).cls = .inf ∧
    (decompose fmtS 0xFFFFFFFF#32).cls = .nan ∧ (decompose fmtD 0x7FF0000000000001#64).cls = .nan := by decide

/-- DecSAnswersWithItsRecord, DecDAnswersWithItsRecord: the normal patterns of their one conditional clause. -/
theorem witness_rule_normal :
    (ruleR121 0xFF7FFFFF#32).cls = .normal ∧ (ruleR122 0x7FEFFFFFFFFFFFFF#64).cls = .normal := by decide

/-- SqrtSelectsOneOfSixCases, ClassOfTheResult: each case of R140, for both engines. -/
theorem witness_six_cases :
    (∀ p ∈ ([(0xFF800001, .nan, 1), (0x7F800000, .inf, 0), (0xFF800000, .inf, 1), (0x80000000, .zero, 1),
        (0x80000001, .subnormal, 1), (0xFF7FFFFF, .normal, 1), (0x00000001, .subnormal, 0),
        (0x7F7FFFFF, .normal, 0)] : List (BitVec 32 × Cls × BitVec 1)),
      classify fmtS p.1 = p.2.1 ∧ signField fmtS p.1 = p.2.2) ∧
    ∀ p ∈ ([(0xFFF0000000000001, .nan, 1), (0x7FF0000000000000, .inf, 0), (0xFFF0000000000000, .inf, 1),
        (0x8000000000000000, .zero, 1), (0x8000000000000001, .subnormal, 1), (0xFFEFFFFFFFFFFFFF, .normal, 1),
        (0x0000000000000001, .subnormal, 0), (0x7FEFFFFFFFFFFFFF, .normal, 0)] : List (BitVec 64 × Cls × BitVec 1)),
      classify fmtD p.1 = p.2.1 ∧ signField fmtD p.1 = p.2.2 := by decide

/-- SqrtPassesZeroInfinityAndNanThrough: its clauses, with an allowed configuration. -/
theorem witness_pass_through :
    NanOk oneNanS ∧ classify fmtS 0x80000000#32 = .zero ∧
    (classify fmtS 0x7F800000#32 = .inf ∧ signField fmtS 0x7F800000#32 = 0#1) ∧
    classify fmtS 0xFF800001#32 = .nan := ⟨witness_NanOk.1, by decide, by decide, by decide⟩

/-- SqrtOfAnInvalidOperandIsANan: -infinity and the smallest negative subnormal. -/
theorem witness_invalid :
    NanOk oneNanS ∧ (signField fmtS 0xFF800000#32 = 1#1 ∧ classify fmtS 0xFF800000#32 = .inf) ∧
    (signField fmtS 0x80000001#32 = 1#1 ∧ classify fmtS 0x80000001#32 = .subnormal) ∧
    isInvalid fmtS 0xFF7FFFFF#32 = true ∧ isInvalid fmtD 0x8000000000000001#64 = true :=
  ⟨witness_NanOk.1, by decide, by decide, by decide, by decide⟩

/-- NanChoicesAreExactlyTheNanPatterns: the NaN of the smallest and of the largest choice. -/
theorem witness_nan_patterns :
    classify fmtS 0x7F800001#32 = .nan ∧ classify fmtS 0xFFFFFFFF#32 = .nan ∧
    classify fmtD 0xFFF0000000000001#64 = .nan := by decide

set_option maxRecDepth 4096 in
/-- OnlyNanResultsDependOnTheConfiguration: two allowed configurations and a result that is no NaN. -/
theorem witness_two_configurations :
    NanOk oneNanS ∧ NanOk otherNanS ∧ classify fmtS (sqrt fmtS oneNanS 0x40A00000#32) ≠ .nan :=
  ⟨witness_NanOk.1, witness_NanOk.2, by decide⟩

/-- RecurrenceInvariant, WorkingValuesAreBounded, RoundingGivesTheNearestInteger: the smallest and the largest start
of format S, the first and the last iteration, and each way a loop can end. -/
theorem witness_starts :
    (2 ^ fmtS.mw ≤ 0x800000 ∧ 0x800000 < 2 ^ (fmtS.mw + 2) ∧ 0x800000 ≤ 2 ^ (fmtS.mw + 2) - 2) ∧
    (2 ^ fmtS.mw ≤ 0x1FFFFFE ∧ 0x1FFFFFE ≤ 2 ^ (fmtS.mw + 2) - 2) ∧ 0 ≤ fmtS.mw + 1 ∧ 25 ≤ niter fmtS ∧
    (workRun (workStart fmtS 0x800000) (niter fmtS)).ix = 0 ∧
    ((workRun (workStart fmtS 0xA00000) (niter fmtS)).ix ≠ 0 ∧
      (workRun (workStart fmtS 0xA00000) (niter fmtS)).q % 2 = 1) ∧
    ((workRun (workStart fmtS 0x1FFFFFE) (niter fmtS)).ix ≠ 0 ∧
      (workRun (workStart fmtS 0x1FFFFFE) (niter fmtS)).q % 2 = 0) := by decide

/-- WorkingValuesAreBounded, OperandIsNormalisedAndItsExponentHalved, ReassemblyFormsAgree, ClassOfTheResult,
PerfectSquaresMonotonicityAndClass: positive operands of both classes, with odd and even exponents. -/
theorem witness_positive :
    (signField fmtS 0x00000001#32 = 0#1 ∧ classify fmtS 0x00000001#32 = .subnormal ∧ normExp fmtS 0x00000001#32 % 2 = 1) ∧
    (signField fmtS 0x00000002#32 = 0#1 ∧ classify fmtS 0x00000002#32 = .subnormal ∧ normExp fmtS 0x00000002#32 % 2 = 0) ∧
    (signField fmtS 0x7F7FFFFF#32 = 0#1 ∧ classify fmtS 0x7F7FFFFF#32 = .normal ∧ normExp fmtS 0x7F7FFFFF#32 % 2 = 1) ∧
    (signField fmtS 0x00800000#32 = 0#1 ∧ classify fmtS 0x00800000#32 = .normal ∧ normExp fmtS 0x00800000#32 % 2 = 0) ∧
    (classify fmtD 0x0000000000000001#64 = .subnormal ∧ normExp fmtD 0x0000000000000001#64 % 2 = 0) ∧
    (classify fmtD 0x7FEFFFFFFFFFFFFF#64 = .normal ∧ normExp fmtD 0x7FEFFFFFFFFFFFFF#64 % 2 = 1) := by decide

/-- RootIsCorrectlyRounded: the value of 4.0, the root's, and another number of the format. -/
theorem witness_root :
    valueOf fmtS 0x40800000#32 = .finite 4 ∧ (0 : ℚ) < 4 ∧
    valueOf fmtS (sqrt fmtS oneNanS 0x40800000#32) = .finite 2 ∧
    (valueOf fmtS 0x80000000#32).rat? = some 0 ∧ (0 : ℚ) ≠ 2 := by
  have value (x : BitVec 32) (e : Nat) (he : expField fmtS x = BitVec.ofNat 8 (127 + e)) (hf : mantField fmtS x = 0#23)
      (hs : signField fmtS x = 0#1) (h : e < 100) : valueOf fmtS x = .finite (2 ^ e) := by
    have hb : (bias fmtS : Int) = 127 := rfl
    have hn : (BitVec.ofNat 8 (127 + e)).toNat = 127 + e := by
      rw [BitVec.toNat_ofNat]; exact Nat.mod_eq_of_lt (by omega)
    have hc : classify fmtS x = .normal := by
      simp only [classify, classOf, he, hn, emaxField]
      rw [if_neg (by omega), if_neg (by omega)]
    simp only [valueOf, hc, he, hn, hf, hs, hb, signFactor, FpValue.finite.injEq]
    rw [show ((127 + e : Nat) : Int) - 127 = (e : Int) by omega, zpow_natCast]
    norm_num
  refine ⟨?_, by norm_num, ?_, rfl, by norm_num⟩
  · rw [value _ 2 (by decide) (by decide) (by decide) (by decide)]; norm_num
  · rw [show sqrt fmtS oneNanS 0x40800000#32 = 0x40000000#32 by decide,
      value _ 1 (by decide) (by decide) (by decide) (by decide)]; norm_num

/-- PerfectSquaresMonotonicityAndClass: the operand and the root of a perfect square (their values are those of
`witness_root`), and an operand below another, at both ends. -/
theorem witness_square :
    (signField fmtS 0x40800000#32 = 0#1 ∧ signField fmtS 0x40000000#32 = 0#1) ∧
    ((valueOf fmtS 0x00000000#32).rat? = some 0 ∧ (valueOf fmtS 0x00000000#32).rat? = some ((0 : ℚ) ^ 2)) ∧
    (classify fmtS 0x00000000#32 ≠ .nan ∧ classify fmtS 0x7F800000#32 ≠ .nan ∧ 0x00000000#32 < 0x7F800000#32) :=
  ⟨by decide, ⟨rfl, by norm_num [valueOf, show classify fmtS 0x00000000#32 = .zero by decide, FpValue.rat?]⟩, by decide⟩

/-- SqrtSMeetsItsContract, SqrtDMeetsItsContract: both ends of the range, and the answers of two operands. -/
theorem witness_contract (s : State) :
    (0x00000001#32 ≤ 0x00000001#32 ∧ 0x00000001#32 ≤ 0x7F7FFFFF#32 ∧ 0x7F7FFFFF#32 ≤ 0x7F7FFFFF#32) ∧
    exec (.sqrtS 0x00000001#32) s = .next (s.answered (.sqrtS (sqrt fmtS blockNanS 0x00000001#32))) ∧
    exec (.sqrtS 0x7F7FFFFF#32) s = .next (s.answered (.sqrtS (sqrt fmtS blockNanS 0x7F7FFFFF#32))) ∧
    (0x0000000000000001#64 ≤ 0x7FEFFFFFFFFFFFFF#64 ∧ 0x7FEFFFFFFFFFFFFF#64 ≤ 0x7FEFFFFFFFFFFFFF#64) ∧
    exec (.sqrtD 0x0000000000000001#64) s = .next (s.answered (.sqrtD (sqrt fmtD blockNanD 0x0000000000000001#64))) ∧
    exec (.sqrtD 0x7FEFFFFFFFFFFFFF#64) s = .next (s.answered (.sqrtD (sqrt fmtD blockNanD 0x7FEFFFFFFFFFFFFF#64))) :=
  ⟨by decide, rfl, rfl, by decide, rfl, rfl⟩

/-- UpperHalfOfTheBusIsIgnoredForS: both values of the format field, under either unit. -/
theorem witness_format_field :
    opFmt 0b00#2 = false ∧ opFmt 0b10#2 = false ∧ opFmt 0b01#2 = true ∧ opFmt 0b11#2 = true := by decide

/-- DecodeAndEncodeAgree: two canonical requests for one instruction. -/
theorem witness_canonical :
    Request.canonical { op := 0b10#2, a := 0x00000000FFFFFFFF#64 } = true ∧
    Request.canonical (encode (.decS 0xFFFFFFFF#32)) = true ∧
    decode { op := 0b10#2, a := 0x00000000FFFFFFFF#64 } = decode (encode (.decS 0xFFFFFFFF#32)) := by decide

/-- StepPerformsTheOldestRequest: a state with two requests, and one with none. -/
theorem witness_requests :
    (State.requests { requests := [encode (.decS 1#32), encode (.sqrtD 0#64)], responses := [] } =
      encode (.decS 1#32) :: [encode (.sqrtD 0#64)]) ∧ State.reset.requests = [] := ⟨rfl, rfl⟩

/-- PresentedWordIsPerformedNext: the longest table word, and a bare row. -/
theorem witness_table_word :
    decodeTableWord 66 (2 ^ 66 - 1) = some (.decD 0xFFFFFFFFFFFFFFFF#64) ∧ decodeTableWord 8 0b00 = some (.sqrtS 0#32) := by
  decide

/-- InterleavingsGiveTheSameResponses, EveryOperationAfterResetGivesItsValue: two orders of two requests, and their
runs. -/
theorem witness_two_orders :
    List.Perm [encode (.decS 1#32), encode (.decD 2#64)] [encode (.decD 2#64), encode (.decS 1#32)] ∧
    (∃ t, core.run 2 { requests := [encode (.decS 1#32), encode (.decD 2#64)], responses := [] } = .next t) ∧
    (∃ t, core.run 2 { requests := [encode (.decD 2#64), encode (.decS 1#32)], responses := [] } = .next t) ∧
    ∃ t, core.run 1 { State.reset with requests := [encode (.decS 1#32)] ++ [encode (.decD 2#64)] } = .next t :=
  ⟨List.Perm.swap _ _ _, ⟨_, rfl⟩, ⟨_, rfl⟩, ⟨_, rfl⟩⟩

/-- A root and a record given, an infinity given before them, and a request outstanding. -/
def midway : State :=
  { requests := [encode (.sqrtS 0xBF800000#32)]
    responses := [.sqrtS 0x7F800000#32, .sqrtS 0x5F7FFFFF#32, .decS (decompose fmtS 0x80000001#32)] }

/-- StepKeepsEveryResponseAllowed: a state that meets the invariant and steps. -/
theorem witness_invariant : midway.Inv ∧ ∃ t, step midway = .next t := by
  refine ⟨?_, _, rfl⟩
  intro y hy
  simp only [midway, List.mem_cons, List.not_mem_nil, or_false] at hy
  rcases hy with rfl | rfl | rfl
  · exact ⟨by decide, by decide, by decide⟩
  · exact ⟨by decide, by decide, by decide⟩
  · exact ⟨by decide, by decide, by decide, by decide, by decide, by decide⟩

/-- ListingReadsBack: a line of each operand form, at the ends of a pattern's range. -/
theorem witness_lines :
    Line.wellFormed { dst := ['t'], op := 0b00#2, src := .pattern 8 0xFFFFFFFF } = true ∧
    Line.wellFormed { dst := ['t', '0'], op := 0b11#2, src := .pattern 16 0 } = true ∧
    Line.wellFormed { dst := ['t', '2'], op := 0b01#2, src := .name ['t', '0'] } = true ∧
    Line.wellFormed { dst := ['d', '1'], op := 0b10#2, src := .field ['d', '0'] .sig } = true ∧
    isName ['t', '1', '1'] = true := by decide

/-- AlgorithmMeetsItsContract: positive operands at both ends, of both formats. -/
theorem witness_case_six :
    (signField fmtS 0x00000001#32 = 0#1 ∧ classify fmtS 0x00000001#32 = .subnormal) ∧
    (signField fmtD 0x7FEFFFFFFFFFFFFF#64 = 0#1 ∧ classify fmtD 0x7FEFFFFFFFFFFFFF#64 = .normal) := by decide

/-- Two results and two records, one of each format, under names. -/
def fourNames : Names :=
  [(['t', '0'], .sqrtS 0x1A3504F3#32), (['t', '1'], .sqrtD 0x4000000000000000#64),
    (['d', '0'], .decS (decompose fmtS 0x00000001#32)), (['d', '1'], .decD (decompose fmtD 0x4030000000000000#64))]

/-- OperandOfALineStandsForItsValue: a code of each width; a name of each kind; a field that is not negative and, of
the smallest subnormal, one that is; a line with a request. -/
theorem witness_operands :
    opFmt 0b10#2 = false ∧ opFmt 0b11#2 = true ∧
    fourNames.lookup ['t', '0'] = some (.sqrtS 0x1A3504F3#32) ∧
    fourNames.lookup ['t', '1'] = some (.sqrtD 0x4000000000000000#64) ∧
    (fourNames.lookup ['d', '0'] = some (.decS (decompose fmtS 0x00000001#32)) ∧
      0 ≤ fieldNumber (decompose fmtS 0x00000001#32) .sig ∧ fieldNumber (decompose fmtS 0x00000001#32) .nexp < 0) ∧
    (fourNames.lookup ['d', '1'] = some (.decD (decompose fmtD 0x4030000000000000#64)) ∧
      0 ≤ fieldNumber (decompose fmtD 0x4030000000000000#64) .nexp) ∧
    fieldNumber (decompose fmtD 0x0000000000000001#64) .uexp < 0 ∧
    [(['d', '2'], Response.decD (decompose fmtD 1#64))].lookup ['d', '2'] = some (.decD (decompose fmtD 1#64)) ∧
    Line.request fourNames { dst := ['t', '2'], op := 0b01#2, src := .name ['t', '1'] } =
      some { op := 0b01#2, a := 0x4000000000000000#64 } := by decide

end Sys2Proof.Tests
end

/-!
PROOFS of the statements about 00_scope.md: the NaN patterns and the open parameters of R8, and the parameters of R5.
-/

namespace Sys2Proof.Machine

section

variable {F : Format}

/-! ### The fields of a NaN pattern -/

theorem signField_nanOf (choice : BitVec 1 × Fin (2 ^ F.mw - 1)) : signField F (nanOf F choice) = choice.1 :=
  signField_pack ..

theorem toNat_mantField_nanOf (choice : BitVec 1 × Fin (2 ^ F.mw - 1)) :
    (mantField F (nanOf F choice)).toNat = choice.2.val + 1 := by
  have hlt := choice.2.isLt
  rw [nanOf, mantField_pack, BitVec.toNat_ofNat, Nat.mod_eq_of_lt (by omega)]

/-- The sign and the mantissa field of a NaN pattern give its choice back. -/
theorem nanOf_injective : Function.Injective (nanOf F) := by
  intro c c' h
  have hsign : c.1 = c'.1 := by rw [← signField_nanOf c, h, signField_nanOf]
  have hmant : c.2.val + 1 = c'.2.val + 1 := by
    rw [← toNat_mantField_nanOf c, h, toNat_mantField_nanOf]
  exact Prod.ext hsign (Fin.ext (Nat.succ_injective hmant))

/-- The choice that names the NaN pattern `y`: its sign, and its nonzero mantissa field less one. -/
def nanChoice (y : BitVec F.w) (hy : (mantField F y).toNat ≠ 0) : BitVec 1 × Fin (2 ^ F.mw - 1) :=
  (signField F y, ⟨(mantField F y).toNat - 1, by have := (mantField F y).isLt; omega⟩)

theorem nanOf_nanChoice {y : BitVec F.w} (hexp : (expField F y).toNat = emaxField F)
    (hmant : (mantField F y).toNat ≠ 0) : nanOf F (nanChoice y hmant) = y := by
  have hsub : (mantField F y).toNat - 1 + 1 = (mantField F y).toNat := by omega
  simp only [nanOf, nanChoice, ← hexp, hsub, BitVec.ofNat_toNat, BitVec.setWidth_eq, pack_fields]

/-! ### Configurations that meet the constraint of R8 -/

theorem isNan_nanOf (choice : BitVec 1 × Fin (2 ^ F.mw - 1)) : isNan F (nanOf F choice) = true :=
  isNan_iff.2 (classify_nanOf choice)

/-- A configuration whose results are all named by choices meets the constraint, whatever the choices are. -/
theorem nanOk_of_choices (prop inv : BitVec F.w → BitVec 1 × Fin (2 ^ F.mw - 1)) :
    NanOk { prop := fun x => nanOf F (prop x), inv := fun x => nanOf F (inv x) } :=
  ⟨fun x _ => isNan_nanOf (prop x), fun x _ => isNan_nanOf (inv x)⟩

theorem toNat_expField_eq_emaxField_iff {x : BitVec F.w} :
    (expField F x).toNat = emaxField F ↔ expField F x = BitVec.allOnes F.ew := by
  rw [← BitVec.toNat_inj, BitVec.toNat_allOnes, emaxField]

theorem expField_expMask : expField F (expMask F) = BitVec.allOnes F.ew := by
  have hmask : expMask F = pack F 0#1 (BitVec.allOnes F.ew) 0#F.mw := by
    apply BitVec.eq_of_toNat_eq
    have hlt : (2 ^ F.ew - 1) * 2 ^ F.mw < 2 ^ F.w := by
      have hew : 2 ^ F.ew - 1 < 2 ^ (1 + F.ew) := by
        have := Nat.two_pow_pos F.ew
        rw [pow_add]; omega
      rw [Format.w, pow_add]
      exact Nat.mul_lt_mul_of_pos_right hew (Nat.two_pow_pos F.mw)
    simp [expMask, toNat_pack, Nat.shiftLeft_eq, Nat.mod_eq_of_lt hlt]
  rw [hmask, expField_pack]

/-- The bit REFCFG sets is the top bit of the mantissa field (D5). -/
theorem toNat_mantField_quietBit (hF : 0 < F.mw) :
    (mantField F (BitVec.ofNat F.w (1 <<< (F.mw - 1)))).toNat = 2 ^ (F.mw - 1) := by
  have hmw : 2 ^ (F.mw - 1) < 2 ^ F.mw := Nat.pow_lt_pow_right (by omega) (by omega)
  have hw : 2 ^ (F.mw - 1) < 2 ^ F.w := Nat.pow_lt_pow_right (by omega) (by rw [Format.w]; omega)
  rw [mantField, BitVec.extractLsb'_toNat, BitVec.toNat_ofNat, Nat.shiftRight_zero, Nat.one_shiftLeft,
    Nat.mod_eq_of_lt hw, Nat.mod_eq_of_lt hmw]

/-- Setting REFCFG's bit under an all-ones exponent gives a NaN: the exponent stays all ones, and the mantissa
field becomes nonzero. -/
theorem isNan_or_quietBit (hF : 0 < F.mw) {x : BitVec F.w} (hx : expField F x = BitVec.allOnes F.ew) :
    isNan F (x ||| BitVec.ofNat F.w (1 <<< (F.mw - 1))) = true := by
  rw [isNan_iff, classify_nan, toNat_expField_eq_emaxField_iff]
  constructor
  · rw [expField, BitVec.extractLsb'_or, ← expField, hx, BitVec.allOnes_or]
  · rw [mantField, BitVec.extractLsb'_or, ← mantField, ← mantField, BitVec.toNat_or, toNat_mantField_quietBit hF]
    have hbit : 2 ^ (F.mw - 1) ≤ (mantField F x).toNat ||| 2 ^ (F.mw - 1) := Nat.right_le_or
    have := Nat.two_pow_pos (F.mw - 1)
    omega

/-- REFCFG meets the constraint of R8 at every format with a mantissa field. -/
theorem nanOk_refCfg (hF : 0 < F.mw) : NanOk (refCfg F) := by
  constructor
  · intro x hx
    have hexp := (classify_nan.1 (isNan_iff.1 hx)).1
    exact isNan_or_quietBit hF (toNat_expField_eq_emaxField_iff.1 hexp)
  · intro x _
    exact isNan_or_quietBit hF expField_expMask

/-! ### The parameters of R5 -/

theorem expNanInf_eq_two_pow : expNanInf F = 2 ^ (F.ew - 1) := by
  have hpos := Nat.two_pow_pos (F.ew - 1)
  have hcast : ((2 ^ (F.ew - 1) : Nat) : Int) = 2 ^ (F.ew - 1) := by push_cast; rfl
  simp only [expNanInf, maxExp, bias]
  omega

/-- The NaN/infinity sentinel is the true exponent of the all-ones stored exponent (R6, R86). -/
theorem expNanInf_eq_emaxField_sub_bias (hF : 0 < F.ew) : expNanInf F = (emaxField F : Int) - bias F := by
  have hpos := Nat.two_pow_pos (F.ew - 1)
  have hdouble : 2 ^ F.ew = 2 ^ (F.ew - 1) * 2 := by rw [← pow_succ, Nat.sub_add_cancel hF]
  simp only [expNanInf, maxExp, bias, emaxField]
  omega

end

/-! ### The statements -/

/-- Settles O21: every result of the block is named by a choice, and REFCFG sets a mantissa bit under an all-ones
exponent. -/
theorem nanParametersMeetTheirConstraint : Obligations.NanParametersMeetTheirConstraint :=
  ⟨nanOk_of_choices (F := fmtS) Config.nanPropS Config.nanInvS,
    nanOk_of_choices (F := fmtD) Config.nanPropD Config.nanInvD,
    nanOk_refCfg (by decide), nanOk_refCfg (by decide)⟩

/-- Settles O22: `nanOf` is injective, and `nanChoice` is its inverse on the NaN patterns. -/
theorem nanChoicesAreExactlyTheNanPatterns : Obligations.NanChoicesAreExactlyTheNanPatterns := by
  intro F _
  refine ⟨classify_nanOf, fun y hy => ?_⟩
  obtain ⟨hexp, hmant⟩ := classify_nan.1 hy
  have hname := nanOf_nanChoice hexp hmant
  exact ⟨nanChoice y hmant, hname, fun c hc => nanOf_injective (hc.trans hname.symm)⟩

/-- Settles O1: the two columns of R5 are computed, and the identities of R6 hold at every format with an exponent
field. -/
theorem formatParametersHaveTheirValues : Obligations.FormatParametersHaveTheirValues := by
  refine ⟨by decide, by decide, fun F hF => ?_⟩
  have hew : 0 < F.ew := by rcases hF with rfl | rfl <;> decide
  have hdenorm : expDenorm F = 0 - (bias F : Int) := (Int.zero_sub _).symm
  exact ⟨rfl, rfl, rfl, hdenorm, expNanInf_eq_emaxField_sub_bias hew, expNanInf_eq_two_pow, rfl, rfl, rfl⟩

end Sys2Proof.Machine

/-!
PROOFS of the statements about 20_memory.md: what an instruction does to the transaction (R43(d)), and that its
response is a function of the instruction alone (R46).
-/

namespace Sys2Proof.Machine

/-- Every instruction goes on to the state that has been given its answer: `exec` only responds, and responding is
all that happens. -/
theorem exec_eq_next_answered_answer (i : Instr) (s : State) : exec i s = .next (s.answered (answer i)) :=
  (exec_eq_respond_answer i s).trans (respond_eq (answer i) s)

/-- Responding keeps the outstanding requests and only extends the list of responses (R43(d)). -/
theorem answered_eq_append_responses (s : State) (y : Response) :
    s.answered y = { requests := s.requests, responses := s.responses ++ [y] } := rfl

/-! ### The statements -/

/-- Settles O43: every instruction only gives its answer, and an answer goes at the end of the responses and
nowhere else. -/
theorem execGivesItsAnswerAndNothingElse : Obligations.ExecGivesItsAnswerAndNothingElse := by
  intro i s
  rw [exec_eq_next_answered_answer, answered_eq_append_responses]

/-- Settles O47: the one response is `answer i`, which is given no state to read. -/
theorem responseIsAFunctionOfTheInstruction : Obligations.ResponseIsAFunctionOfTheInstruction :=
  fun i => ⟨answer i, exec_eq_next_answered_answer i⟩

end Sys2Proof.Machine

/-!
PROOFS of the statements about 30_encoding.md: the opcode map and the operand bus (R61 to R65), requests and steps
(R60), and the lines of a listing (R67, R68).
-/

namespace Sys2Proof

/-! ### The opcode map, row by row -/

/-- The two bits of `op` give the four codes of R64 and no other. -/
theorem opCode_cases (op : OpCode) : op = 0b00#2 ∨ op = 0b01#2 ∨ op = 0b10#2 ∨ op = 0b11#2 := by
  revert op; decide

@[simp] theorem decode_code_sqrtS (a : Bus) : decode { op := 0b00#2, a := a } = .sqrtS (operandS a) := by
  simp [decode, opUnit, opFmt]

@[simp] theorem decode_code_sqrtD (a : Bus) : decode { op := 0b01#2, a := a } = .sqrtD a := by
  simp [decode, opUnit, opFmt, operandD]

@[simp] theorem decode_code_decS (a : Bus) : decode { op := 0b10#2, a := a } = .decS (operandS a) := by
  simp [decode, opUnit, opFmt]

@[simp] theorem decode_code_decD (a : Bus) : decode { op := 0b11#2, a := a } = .decD a := by
  simp [decode, opUnit, opFmt, operandD]

/-- A code of format S decodes to an operation on the lower half of the bus (R62). -/
theorem decode_of_fmtS {op : OpCode} (h : opFmt op = false) :
    (∀ a, decode { op := op, a := a } = .sqrtS (operandS a)) ∨
      ∀ a, decode { op := op, a := a } = .decS (operandS a) := by
  rcases opCode_cases op with rfl | rfl | rfl | rfl
  · exact .inl decode_code_sqrtS
  · exact absurd h (by decide)
  · exact .inr decode_code_decS
  · exact absurd h (by decide)

/-- A code of format D decodes to an operation on the whole bus (R62). -/
theorem decode_of_fmtD {op : OpCode} (h : opFmt op = true) (a : Bus) :
    decode { op := op, a := a } = .sqrtD a ∨ decode { op := op, a := a } = .decD a := by
  rcases opCode_cases op with rfl | rfl | rfl | rfl
  · exact absurd h (by decide)
  · exact .inl (decode_code_sqrtD a)
  · exact absurd h (by decide)
  · exact .inr (decode_code_decD a)

/-! ### Decoding and encoding -/

@[simp] theorem decode_encode (i : Instr) : decode (encode i) = i := by
  cases i with
  | sqrtS x => rw [encode, decode_code_sqrtS, operandS_busOfS]
  | sqrtD x => exact decode_code_sqrtD x
  | decS x => rw [encode, decode_code_decS, operandS_busOfS]
  | decD x => exact decode_code_decD x

theorem canonical_encode (i : Instr) : (encode i).canonical = true := by
  cases i with
  | sqrtS x => exact (Laws.EncodesCanonically.sqrtS x).2
  | sqrtD x => exact (Laws.EncodesCanonically.sqrtD x).2
  | decS x => exact (Laws.EncodesCanonically.decS x).2
  | decD x => exact (Laws.EncodesCanonically.decD x).2

/-- A canonical request on format S carries its operand and nothing else. -/
theorem busOfS_operandS_of_canonical {op : OpCode} {a : Bus} (hfmt : opFmt op = false)
    (h : Request.canonical { op := op, a := a } = true) : busOfS (operandS a) = a :=
  busOfS_operandS (by simpa [Request.canonical, hfmt] using h)

theorem encode_decode_of_canonical {r : Request} (h : r.canonical = true) : encode (decode r) = r := by
  obtain ⟨op, a⟩ := r
  rcases opCode_cases op with rfl | rfl | rfl | rfl
  · rw [decode_code_sqrtS, encode, busOfS_operandS_of_canonical (by decide) h]
  · rw [decode_code_sqrtD, encode]
  · rw [decode_code_decS, encode, busOfS_operandS_of_canonical (by decide) h]
  · rw [decode_code_decD, encode]

theorem encode_decode_iff_canonical (r : Request) : encode (decode r) = r ↔ r.canonical = true :=
  ⟨fun h => h ▸ canonical_encode (decode r), encode_decode_of_canonical⟩

end Sys2Proof

namespace Sys2Proof.Machine

/-! ### What a step does with the oldest request -/

theorem step_of_no_requests {s : State} (h : s.requests = []) : step s = .next s := by
  obtain ⟨-, hstep⟩ | ⟨r, rest, hcons, -⟩ := step_cases s
  · exact hstep
  · rw [h] at hcons; cases hcons

theorem step_of_requests {s : State} {r : Request} {rest : List Request} (h : s.requests = r :: rest) :
    step s = exec (decode r) { requests := rest, responses := s.responses } := by
  obtain ⟨hnil, -⟩ | ⟨r', rest', hcons, hstep⟩ := step_cases s
  · rw [h] at hnil; cases hnil
  · rw [h] at hcons; cases hcons; exact hstep

/-- The oldest request goes and its answer comes last. -/
theorem step_answers_oldest {s : State} {r : Request} {rest : List Request} (h : s.requests = r :: rest) :
    step s = .next { requests := rest, responses := s.responses ++ [answer (decode r)] } := by
  rw [step_of_requests h, exec_eq_next_answered_answer, answered_eq_append_responses]

/-! ### Runs -/

/-- A run of any machine behind the host's interface takes its first step first. -/
theorem run_succ_of_next {M : Host.Core} {s t : M.State} (h : M.step s = .next t) (k : Nat) :
    M.run (k + 1) s = M.run k t := by
  rw [Host.Core.run, h]

theorem run_succ_of_step {s t : State} (h : step s = .next t) (k : Nat) : core.run (k + 1) s = core.run k t :=
  run_succ_of_next (M := core) h k

theorem run_of_no_requests (k : Nat) (ys : List Response) :
    core.run k { requests := [], responses := ys } = .next { requests := [], responses := ys } := by
  induction k with
  | zero => rfl
  | succ k ih => rw [run_succ_of_step (step_of_no_requests rfl), ih]

/-- A run answers the oldest request, and then what is left, by induction on the requests. -/
theorem run_answers_requests (rs : List Request) (ys : List Response) (more : Nat) :
    core.run (rs.length + more) { requests := rs, responses := ys } =
      .next { requests := [], responses := ys ++ rs.map fun r => answer (decode r) } := by
  induction rs generalizing ys with
  | nil => rw [List.map_nil, List.append_nil, run_of_no_requests]
  | cons r rs ih =>
    rw [List.length_cons, Nat.add_right_comm, run_succ_of_step (step_answers_oldest rfl), ih, List.map_cons,
      List.append_assoc, List.singleton_append]

/-! ### The codes of the classes -/

theorem code_le_four (c : Cls) : c.code ≤ 4#3 := by cases c <;> decide

/-! ### The words of a line -/

/-- What `words` leaves whole: a text that is not empty and holds no blank and no semicolon. -/
def IsWord (cs : List Char) : Prop := cs ≠ [] ∧ ∀ c ∈ cs, c ≠ ' ' ∧ c ≠ ';'

theorem ne_blank_and_semicolon_of_inert {c : Char} (h : isInert c = true) : c ≠ ' ' ∧ c ≠ ';' := by
  simp only [isInert, Bool.and_eq_true, bne_iff_ne] at h
  obtain ⟨⟨hblank, -⟩, hsemi⟩ := h
  exact ⟨hblank, hsemi⟩

theorem isWord_of_inert {cs : List Char} (hne : cs ≠ []) (h : ∀ c ∈ cs, isInert c = true) : IsWord cs :=
  ⟨hne, fun c hc => ne_blank_and_semicolon_of_inert (h c hc)⟩

theorem isWord_append {cs ds : List Char} (hc : IsWord cs) (hd : IsWord ds) : IsWord (cs ++ ds) :=
  ⟨by simp [hc.1], fun c h => (List.mem_append.1 h).elim (hc.2 c) (hd.2 c)⟩

theorem isWord_name {n : Name} (h : isName n = true) : IsWord n :=
  isWord_of_inert (by rintro rfl; cases h) (inert_of_name h)

theorem isWord_mnemonicOf (op : OpCode) : IsWord (mnemonicOf op) := by
  rcases opCode_cases op with rfl | rfl | rfl | rfl <;> simp [IsWord, mnemonicOf, opUnit, opFmt]

theorem isWord_dot_field (f : Field) : IsWord ('.' :: f.print) := by
  cases f <;> simp [IsWord, Field.print]

theorem isWord_source {s : Source} (h : s.wellFormed = true) : IsWord s.print := by
  cases s with
  | pattern count v =>
    refine isWord_of_inert (by simp [Source.print]) fun c hc => ?_
    simp only [Source.print, List.mem_cons] at hc
    rcases hc with rfl | rfl | hc
    · decide
    · decide
    · exact inert_hexDigits count v c hc
  | name n => exact isWord_name h
  | field n f => exact isWord_append (isWord_name h) (isWord_dot_field f)

/-- The words of a printed line are its four parts, with or without a comment. -/
theorem words_print {l : Line} (h : l.wellFormed = true) (comment : List Char) :
    words l.print = [l.dst, ['='], mnemonicOf l.op, l.src.print] ∧
    words (l.print ++ ' ' :: ';' :: comment) = [l.dst, ['='], mnemonicOf l.op, l.src.print] := by
  obtain ⟨hdst, hsrc⟩ := Bool.and_eq_true_iff.1 h
  have parts : ∀ w ∈ [l.dst, ['='], mnemonicOf l.op, l.src.print], IsWord w := by
    simp [isWord_name hdst, isWord_mnemonicOf, isWord_source hsrc, show IsWord ['='] by simp [IsWord]]
  exact words_of_four parts comment

/-- What a line reads back as is decided by its words. -/
theorem readLine_of_words (names : Names) {l : Line} (h : l.wellFormed = true) {cs : List Char}
    (hcs : words cs = [l.dst, ['='], mnemonicOf l.op, l.src.print]) : readLine names cs = some l := by
  obtain ⟨hdst, hsrc⟩ := Bool.and_eq_true_iff.1 h
  simp [readLine, hcs, hdst, readSource_print hsrc]

/-! ### The line of an instruction -/

theorem wellFormed_sourceOf (i : Instr) : (sourceOf i).wellFormed = true := by
  cases i with
  | sqrtS x | decS x => simpa [sourceOf, Source.wellFormed] using x.isLt
  | sqrtD x | decD x => simpa [sourceOf, Source.wellFormed] using x.isLt

theorem wellFormed_lineOf {dst : Name} (h : isName dst = true) (i : Instr) : (lineOf dst i).wellFormed = true :=
  Bool.and_eq_true_iff.2 ⟨h, wellFormed_sourceOf i⟩

/-- A pattern written with the digits of its width stands for itself (R67). -/
theorem operand_pattern_toNat (names : Names) {w : Nat} (x : BitVec w) :
    (Source.pattern (w / 4) x.toNat).operand names w = some x := by
  simp [Source.operand]

/-- The request of a code of format S is the code, then the operand on the lower half of the bus (R67). -/
theorem requestOf_fmtS (names : Names) {op : OpCode} (src : Source) (h : opFmt op = false) :
    requestOf names op src = (src.operand names 32).map fun x => { op := op, a := busOfS x } := by
  rw [requestOf, if_neg (by simp [h])]

/-- The request of a code of format D is the code, then the operand (R67). -/
theorem requestOf_fmtD (names : Names) {op : OpCode} (src : Source) (h : opFmt op = true) :
    requestOf names op src = (src.operand names 64).map fun x => { op := op, a := x } := by
  rw [requestOf, if_pos h]

theorem requestOf_sourceOf (names : Names) (i : Instr) :
    requestOf names (encode i).op (sourceOf i) = some (encode i) := by
  cases i with
  | sqrtS x | decS x =>
    rw [encode, requestOf_fmtS _ _ (by simp [opFmt]), sourceOf, operand_pattern_toNat, Option.map_some]
  | sqrtD x | decD x =>
    rw [encode, requestOf_fmtD _ _ (by simp [opFmt]), sourceOf, operand_pattern_toNat, Option.map_some]

/-- Any operation name that is read as the code of an instruction asks, with its operand, for the instruction. -/
theorem assemble_operandText (names : Names) {name : List Char} {i : Instr}
    (h : readOp names (sourceOf i) name = some (encode i).op) : assemble names name (operandText i) = some i := by
  rw [assemble, operandText, readSource_print (wellFormed_sourceOf i), Option.bind_some, h, Option.bind_some,
    requestOf_sourceOf, Option.map_some, decode_encode]

/-- `0x` and `W/4` digits (R67). -/
theorem length_printOperand {w : Nat} (x : BitVec w) : (printOperand x).length = 2 + w / 4 := by
  rw [printOperand, Source.print, List.length_cons, List.length_cons, length_hexDigits]; omega

/-! ### The fields of a record as operands -/

section

variable {F : Format}

theorem trueExp_lt (x : BitVec F.w) : trueExp F x < 2 ^ F.ew := by
  have hfield : ((expField F x).toNat : Int) < 2 ^ F.ew := by exact_mod_cast (expField F x).isLt
  rw [trueExp]; omega

theorem normExp_lt (hF : 0 < F.ew) (x : BitVec F.w) : normExp F x < 2 ^ F.ew := by
  by_cases h : classify F x = .subnormal
  · have hone : (1 : Int) < 2 ^ F.ew := one_lt_pow₀ (by norm_num) hF.ne'
    rw [normExp_subnormal h]; omega
  · rw [normExp_other h]; exact trueExp_lt x

theorem normShift_le (hF : 0 < F.ew) (x : BitVec F.w) : normShift F x ≤ F.mw := by
  by_cases h : classify F x = .subnormal
  · obtain ⟨-, -, hle, -⟩ := subnormalShift_spec ((classify_subnormal hF).1 h).2
    rw [normShift_subnormal h]; exact hle
  · rw [normShift_other h]; exact Nat.zero_le _

/-- The numbers of a record fit the widths R110 gives its fields. -/
theorem fieldNumber_lt (hF : 0 < F.ew) (x : BitVec F.w) (f : Field) :
    fieldNumber (decompose F x) f < 2 ^ fieldWidth F f := by
  have wider : (2 : Int) ^ F.ew ≤ 2 ^ (F.ew + 1) := pow_le_pow_right₀ (by norm_num) (Nat.le_succ _)
  have natCast_lt {n w : Nat} (h : n < 2 ^ w) : (n : Int) < 2 ^ w := by exact_mod_cast h
  cases f with
  | sign => exact natCast_lt (signField F x).isLt
  | efield => exact natCast_lt (expField F x).isLt
  | mfield => exact natCast_lt (mantField F x).isLt
  | cls => exact natCast_lt (classify F x).code.isLt
  | uexp => exact (trueExp_lt x).trans_le wider
  | sh => exact natCast_lt ((normShift_le hF x).trans_lt Nat.lt_log2_self)
  | nexp => exact (normExp_lt hF x).trans_le wider
  | sig => exact natCast_lt (significand F x).isLt

theorem fieldWidth_fmtS_le (f : Field) : fieldWidth fmtS f ≤ 32 := by cases f <;> decide

theorem fieldWidth_fmtD_le (f : Field) : fieldWidth fmtD f ≤ 64 := by cases f <;> decide

/-- A field that fits the operand and is not negative is the pattern that spells its number. -/
theorem fieldOperand_of_nonneg (hF : 0 < F.ew) {w : Nat} {x : BitVec F.w} {f : Field} (hw : fieldWidth F f ≤ w)
    (h : 0 ≤ fieldNumber (decompose F x) f) :
    ∃ a : BitVec w, fieldOperand w (decompose F x) f = some a ∧
      (a.toNat : Int) = fieldNumber (decompose F x) f := by
  refine ⟨BitVec.ofNat w (fieldNumber (decompose F x) f).toNat, ?_, ?_⟩
  · rw [fieldOperand, if_neg (by omega), if_neg (by omega)]
  · have hlt := fieldNumber_lt hF x f
    have hwider : (2 : Int) ^ fieldWidth F f ≤ 2 ^ w := pow_le_pow_right₀ (by norm_num) hw
    have hfits : (fieldNumber (decompose F x) f).toNat < 2 ^ w := by zify; rw [Int.toNat_of_nonneg h]; omega
    rw [BitVec.toNat_ofNat, Nat.mod_eq_of_lt hfits, Int.toNat_of_nonneg h]

/-- A negative field that fits the operand is some pattern (log entry 13). -/
theorem fieldOperand_of_neg {w : Nat} {d : DecRecord F} {f : Field} (hw : fieldWidth F f ≤ w)
    (h : fieldNumber d f < 0) : ∃ a : BitVec w, fieldOperand w d f = some a :=
  ⟨Config.negativeFieldBits w (fieldNumber d f), by rw [fieldOperand, if_neg (by omega), if_pos h]⟩

end

/-! ### The operand a name stands for -/

theorem operand_name {names : Names} {n : Name} {y : Response} (h : names.lookup n = some y) (w : Nat) :
    (Source.name n).operand names w = y.word w := by
  rw [Source.operand, h, Option.bind_some]

theorem operand_field {names : Names} {n : Name} {y : Response} (h : names.lookup n = some y) (f : Field) (w : Nat) :
    (Source.field n f).operand names w = y.field w f := by
  rw [Source.operand, h, Option.bind_some]

theorem perform_of_request {names : Names} {l : Line} {r : Request} (h : l.request names = some r) :
    l.perform names = some ((l.dst, answer (decode r)) :: names) := by
  rw [Line.perform, h, Option.map_some]

/-! ### The statements -/

/-- Settles O39: encoding is a right inverse of decoding, and a left inverse exactly on the canonical requests, on
which decoding is therefore injective. -/
theorem decodeAndEncodeAgree : Obligations.DecodeAndEncodeAgree := by
  refine ⟨decode_encode, encode_decode_iff_canonical, fun r r' hr hr' h => ?_⟩
  calc r = encode (decode r) := (encode_decode_of_canonical hr).symm
    _ = encode (decode r') := by rw [h]
    _ = r' := encode_decode_of_canonical hr'

/-- Settles O48, by induction on the outstanding requests; the steps left over idle. -/
theorem runAnswersEveryRequest : Obligations.RunAnswersEveryRequest :=
  fun s more => run_answers_requests s.requests s.responses more

/-- Settles O42: a printed line has its four parts as words, each part reads back, and an operation name counts for
the code it is read as. -/
theorem listingReadsBack : Obligations.ListingReadsBack := by
  refine ⟨fun l => by simp [Line.print], fun names l hl => ?_, fun names dst i hdst => ?_, fun names i => ?_,
    fun names x => ⟨length_printOperand x, ?_, ?_⟩, fun names x => ⟨length_printOperand x, ?_, ?_⟩⟩
  · exact ⟨readLine_of_words names hl (words_print hl []).1,
      fun comment => readLine_of_words names hl (words_print hl comment).2⟩
  · have hl := wellFormed_lineOf hdst i
    exact ⟨readLine_of_words names hl (words_print hl []).1, requestOf_sourceOf names i⟩
  · exact assemble_operandText names (readOp_mnemonicOf names (sourceOf i) (encode i).op)
  · exact assemble_operandText (i := .sqrtS x) names rfl
  · exact assemble_operandText (i := .sqrtS x) names rfl
  · exact assemble_operandText (i := .sqrtD x) names rfl
  · exact assemble_operandText (i := .sqrtD x) names rfl

/-- Settles O54, one operand form after the other: patterns, names, fields that are not negative, negative fields; and
the request of a line, performed. -/
theorem operandOfALineStandsForItsValue : Obligations.OperandOfALineStandsForItsValue := by
  refine ⟨fun names op src => requestOf_fmtS names src, fun names op src => requestOf_fmtD names src,
    fun names count v => ⟨rfl, rfl⟩, fun names n y h => ?_, fun names n y h => ?_,
    fun names n f x w hw h hpos => ?_, fun names n f x h hpos => ?_,
    fun names n f x w hw h hneg => ?_, fun names n f x h hneg => ?_,
    fun names l r h => ⟨perform_of_request h, step_answers_oldest rfl⟩⟩
  · simp [operand_name h, Response.word]
  · simp [operand_name h, Response.word]
  · have hwidth := fieldWidth_fmtS_le f
    rw [operand_field h]; exact fieldOperand_of_nonneg (by decide) (by omega) hpos
  · rw [operand_field h]; exact fieldOperand_of_nonneg (by decide) (fieldWidth_fmtD_le f) hpos
  · have hwidth := fieldWidth_fmtS_le f
    rw [operand_field h]; exact fieldOperand_of_neg (by omega) hneg
  · rw [operand_field h]; exact fieldOperand_of_neg (fieldWidth_fmtD_le f) hneg

/-- Settles O37: the fields are the bits of the code, and the map is the four equations of `decode`. -/
theorem opcodeMap : Obligations.OpcodeMap :=
  ⟨fun _ => ⟨Iff.rfl, Iff.rfl⟩,
    fun a => ⟨decode_code_sqrtS a, decode_code_sqrtD a, decode_code_decS a, decode_code_decD a⟩⟩

/-- Settles O38: a code of format S reads the lower half of the bus and one of format D the whole of it. -/
theorem upperHalfOfTheBusIsIgnoredForS : Obligations.UpperHalfOfTheBusIsIgnoredForS := by
  refine ⟨fun op hi hi' lo hop => ?_, fun op a hop => decode_of_fmtD hop a, fun y => ?_, fun y => rfl⟩
  · rcases decode_of_fmtS hop with h | h <;> simp [h]
  · rw [← busOfS_eq]; rfl

/-- Settles O40: decoding and `exec` answer everything, and a class has one of five codes. -/
theorem nothingIsReservedOrIllegal : Obligations.NothingIsReservedOrIllegal :=
  ⟨fun nbits w => ⟨decode (requestOfTableWord nbits w), rfl⟩,
    fun r s => ⟨answer (decode r), exec_eq_next_answered_answer (decode r) s⟩,
    fun _ => code_le_four _, fun _ => code_le_four _⟩

/-- Settles O44, by the two things a step can do. -/
theorem stepPerformsTheOldestRequest : Obligations.StepPerformsTheOldestRequest :=
  ⟨fun _ _ _ h => ⟨step_of_requests h, step_answers_oldest h⟩, fun _ => step_of_no_requests⟩

/-- Settles O45: the presented request is the oldest one. -/
theorem presentedWordIsPerformedNext : Obligations.PresentedWordIsPerformedNext := by
  intro s nbits w i h
  have hi : decode (requestOfTableWord nbits w) = i := Option.some.inj h
  rw [State.withFetchWord, step_of_requests (withNextRequest_requests s _), withNextRequest_responses, hi]

end Sys2Proof.Machine

/-!
PROOFS of the statements about 40_formats_constants.md: the masks (R80 to R83, R87), the field split and its inverse
(R91), the exponent range (R89), the true exponent and its sentinels (R85, R86, R115), the values row by row (R88) and
their order (R90).
-/

namespace Sys2Proof.Machine

section

variable {F : Format}

/-- Both formats have an exponent field of more than one bit (R5). -/
theorem one_lt_ew (hF : F = fmtS ∨ F = fmtD) : 1 < F.ew := by
  rcases hF with rfl | rfl <;> decide

/-! ### The masks -/

theorem ofNat_shiftLeft (w a k : Nat) : BitVec.ofNat w (a <<< k) = BitVec.ofNat w a <<< k := by
  apply BitVec.eq_of_toNat_eq
  simp [Nat.shiftLeft_eq, Nat.mod_mul_mod]

/-- `EXP_MASK` as a number; no bit of it is lost to the width of the word (R81). -/
theorem toNat_expMask : (expMask F).toNat = emaxField F * 2 ^ F.mw := by
  have hfield : 2 ^ F.ew - 1 < 2 ^ (1 + F.ew) := by
    have := Nat.two_pow_pos F.ew
    rw [pow_add]; omega
  rw [expMask, BitVec.toNat_ofNat, Nat.mod_eq_of_lt (Nat.shiftLeft_lt hfield), Nat.shiftLeft_eq, emaxField]

/-! ### Recomposition -/

/-- The packed word is the or of its fields, each shifted to its place (R91). -/
theorem pack_eq_or_shiftLeft (s : BitVec 1) (e : BitVec F.ew) (f : BitVec F.mw) :
    pack F s e f = (s.setWidth F.w <<< (F.w - 1)) ||| (e.setWidth F.w <<< F.mw) ||| f.setWidth F.w := by
  have hw : F.w - 1 = F.ew + F.mw := by rw [Format.w]; omega
  rw [hw, ← BitVec.setWidth_append_append_eq_shiftLeft_setWidth_or, BitVec.setWidth_eq, pack]

/-! ### The exponent range -/

theorem classify_normal_iff_range {x : BitVec F.w} :
    classify F x = .normal ↔ 1 ≤ (expField F x).toNat ∧ (expField F x).toNat ≤ 2 ^ F.ew - 2 := by
  have hlt := (expField F x).isLt
  rw [classify_normal, emaxField]; omega

/-- Off the two ends of the stored field the true exponent lies in `[1-BIAS, BIAS]` (R89, R115). -/
theorem trueExp_range (hF : 1 < F.ew) {x : BitVec F.w} (hmax : (expField F x).toNat ≠ emaxField F)
    (hzero : (expField F x).toNat ≠ 0) : 1 - (bias F : Int) ≤ trueExp F x ∧ trueExp F x ≤ bias F := by
  have hbias := (emaxField_eq_two_bias hF).1
  have hle := expField_le x
  rw [trueExp]; omega

theorem trueExp_range_of_normal (hF : 1 < F.ew) {x : BitVec F.w} (h : classify F x = .normal) :
    1 - (bias F : Int) ≤ trueExp F x ∧ trueExp F x ≤ bias F :=
  trueExp_range hF (classify_normal.1 h).1 (classify_normal.1 h).2

/-! ### The sentinels -/

theorem trueExp_eq_expDenorm_iff {x : BitVec F.w} : trueExp F x = expDenorm F ↔ (expField F x).toNat = 0 := by
  rw [trueExp, expDenorm]; omega

theorem trueExp_eq_expNanInf_iff (hF : 0 < F.ew) {x : BitVec F.w} :
    trueExp F x = expNanInf F ↔ (expField F x).toNat = emaxField F := by
  rw [trueExp, expNanInf_eq_emaxField_sub_bias hF]; omega

/-! ### The value of each class -/

theorem valueOf_zero {x : BitVec F.w} (h : classify F x = .zero) :
    valueOf F x = .zero (signField F x == 1#1) := by simp only [valueOf, h]

theorem valueOf_subnormal {x : BitVec F.w} (h : classify F x = .subnormal) :
    valueOf F x =
      .finite (signFactor (signField F x) * ((mantField F x).toNat / 2 ^ F.mw) * 2 ^ (1 - (bias F : Int))) := by
  simp only [valueOf, h]

theorem valueOf_normal {x : BitVec F.w} (h : classify F x = .normal) :
    valueOf F x =
      .finite (signFactor (signField F x) * (1 + (mantField F x).toNat / 2 ^ F.mw) *
        2 ^ (((expField F x).toNat : Int) - bias F)) := by
  simp only [valueOf, h]

theorem valueOf_inf {x : BitVec F.w} (h : classify F x = .inf) :
    valueOf F x = .inf (signField F x == 1#1) := by simp only [valueOf, h]

theorem valueOf_nan {x : BitVec F.w} (h : classify F x = .nan) : valueOf F x = .nan := by simp only [valueOf, h]

theorem valueOf_eq_inf_iff {x : BitVec F.w} {neg : Bool} :
    valueOf F x = .inf neg ↔ classify F x = .inf ∧ (signField F x == 1#1) = neg := by
  cases h : classify F x with
  | zero => simp [valueOf_zero h]
  | subnormal => simp [valueOf_subnormal h]
  | normal => simp [valueOf_normal h]
  | inf => simp [valueOf_inf h]
  | nan => simp [valueOf_nan h]

/-! ### The factor of the sign -/

@[simp] theorem signFactor_zero : signFactor 0#1 = 1 := by simp [signFactor]

theorem signFactor_cases (s : BitVec 1) : signFactor s = 1 ∨ signFactor s = -1 := by
  unfold signFactor; split_ifs <;> simp

/-! ### Values counted in units of the smallest positive one -/

/-- The smallest positive value, that of a mantissa field of 1 under a stored exponent of 0 (R88). -/
def smallestPositive (F : Format) : ℚ := 2 ^ (1 - (bias F : Int) - F.mw)

/-- The magnitude of a finite pattern as a number of smallest positive values: its significand, moved up by one place
for each step of the stored exponent above 1. -/
def units (F : Format) (x : BitVec F.w) : Nat :=
  if (expField F x).toNat = 0 then (mantField F x).toNat
  else (2 ^ F.mw + (mantField F x).toNat) * 2 ^ ((expField F x).toNat - 1)

theorem smallestPositive_pos : 0 < smallestPositive F := by rw [smallestPositive]; positivity

/-- Either finite class has its units as value. -/
theorem valueOf_eq_units (hF : 0 < F.ew) {x : BitVec F.w} (h : classify F x = .subnormal ∨ classify F x = .normal) :
    valueOf F x = .finite (signFactor (signField F x) * units F x * smallestPositive F) := by
  have hsplit : smallestPositive F = 2 ^ (1 - (bias F : Int)) / 2 ^ F.mw := by
    rw [smallestPositive, zpow_sub₀ two_ne_zero, zpow_natCast]
  rcases h with h | h
  · obtain ⟨hexp, -⟩ := (classify_subnormal hF).1 h
    rw [valueOf_subnormal h, units, if_pos hexp, hsplit]
    congr 1; ring
  · obtain ⟨-, hexp⟩ := classify_normal.1 h
    have hpow : (2 : ℚ) ^ (((expField F x).toNat : Int) - bias F) =
        2 ^ ((expField F x).toNat - 1) * 2 ^ (1 - (bias F : Int)) := by
      rw [← zpow_natCast, ← zpow_add₀ two_ne_zero]
      congr 1; omega
    rw [valueOf_normal h, units, if_neg hexp, hsplit, hpow]
    congr 1; push_cast; field_simp

/-- The units give the number of every pattern that is one, zero included. -/
theorem rat_eq_units (hF : 0 < F.ew) {x : BitVec F.w} {u : ℚ} (h : (valueOf F x).rat? = some u) :
    u = signFactor (signField F x) * units F x * smallestPositive F := by
  cases hc : classify F x with
  | zero =>
    obtain ⟨hexp, hmant⟩ := (classify_zero hF).1 hc
    rw [valueOf_zero hc] at h
    rw [units, if_pos hexp, hmant, ← Option.some.inj h]; simp
  | subnormal =>
    rw [valueOf_eq_units hF (.inl hc)] at h
    exact (Option.some.inj h).symm
  | normal =>
    rw [valueOf_eq_units hF (.inr hc)] at h
    exact (Option.some.inj h).symm
  | inf => rw [valueOf_inf hc] at h; cases h
  | nan => rw [valueOf_nan hc] at h; cases h

/-- A subnormal pattern of one unit has the smallest positive value. -/
theorem valueOf_of_units_eq_one (hF : 0 < F.ew) {x : BitVec F.w} (h : classify F x = .subnormal)
    (hsign : signField F x = 0#1) (hunits : units F x = 1) : valueOf F x = .finite (smallestPositive F) := by
  rw [valueOf_eq_units hF (.inl h), hsign, hunits]; simp

/-- A number that is positive has sign 0 and at least one unit. -/
theorem smallestPositive_le (hF : 0 < F.ew) {x : BitVec F.w} {v : ℚ} (h : valueOf F x = .finite v) (hv : 0 < v) :
    smallestPositive F ≤ v := by
  have hunit := smallestPositive_pos (F := F)
  have hval : v = signFactor (signField F x) * units F x * smallestPositive F :=
    rat_eq_units hF (by rw [h, FpValue.rat?])
  rw [hval] at hv ⊢
  have hcount : 0 < signFactor (signField F x) * units F x := pos_of_mul_pos_left hv hunit.le
  refine le_mul_of_one_le_left hunit.le ?_
  rcases signFactor_cases (signField F x) with hpos | hneg
  · rw [hpos, one_mul] at hcount ⊢
    exact_mod_cast hcount
  · have : (0 : ℚ) ≤ units F x := Nat.cast_nonneg _
    rw [hneg] at hcount
    linarith

/-! ### The order -/

/-- A pattern with sign 0 as a number. -/
theorem toNat_of_signField_zero {x : BitVec F.w} (h : signField F x = 0#1) :
    x.toNat = (expField F x).toNat * 2 ^ F.mw + (mantField F x).toNat := by
  rw [toNat_eq_fields, h]; simp

/-- With sign 0 the stored exponent is what stands above the mantissa field. -/
theorem expField_eq_div {x : BitVec F.w} (h : signField F x = 0#1) :
    (expField F x).toNat = x.toNat / 2 ^ F.mw := by
  rw [toNat_of_signField_zero h, Nat.mul_comm, Nat.mul_add_div (Nat.two_pow_pos _),
    Nat.div_eq_of_lt (mantField F x).isLt, Nat.add_zero]

theorem units_lt_two_pow (x : BitVec F.w) : units F x < 2 ^ (F.mw + (expField F x).toNat) := by
  have hmant := (mantField F x).isLt
  rw [units]
  split_ifs with hexp
  · rw [hexp]; exact hmant
  · calc (2 ^ F.mw + (mantField F x).toNat) * 2 ^ ((expField F x).toNat - 1)
      _ < 2 ^ (F.mw + 1) * 2 ^ ((expField F x).toNat - 1) :=
          Nat.mul_lt_mul_of_pos_right (by rw [pow_succ]; omega) (Nat.two_pow_pos _)
      _ = 2 ^ (F.mw + (expField F x).toNat) := by rw [← pow_add]; congr 1; omega

theorem two_pow_le_units {x : BitVec F.w} (hexp : (expField F x).toNat ≠ 0) :
    2 ^ (F.mw + ((expField F x).toNat - 1)) ≤ units F x := by
  rw [units, if_neg hexp, pow_add]
  exact Nat.mul_le_mul_right _ (Nat.le_add_right _ _)

/-- The stored exponent decides the order, and where it is the same the mantissa field does. -/
theorem units_lt_units {x y : BitVec F.w} (hx : signField F x = 0#1) (hy : signField F y = 0#1) (h : x < y) :
    units F x < units F y := by
  rw [BitVec.lt_def] at h
  have hexp : (expField F x).toNat ≤ (expField F y).toNat := by
    rw [expField_eq_div hx, expField_eq_div hy]; exact Nat.div_le_div_right h.le
  rcases hexp.lt_or_eq with hlt | heq
  · calc units F x
      _ < 2 ^ (F.mw + (expField F x).toNat) := units_lt_two_pow x
      _ ≤ 2 ^ (F.mw + ((expField F y).toNat - 1)) := Nat.pow_le_pow_right two_pos (by omega)
      _ ≤ units F y := two_pow_le_units (by omega)
  · have hmant : (mantField F x).toNat < (mantField F y).toNat := by
      rw [toNat_of_signField_zero hx, toNat_of_signField_zero hy, heq] at h; omega
    rw [units, units, heq]
    split_ifs
    · exact hmant
    · exact Nat.mul_lt_mul_of_pos_right (by omega) (Nat.two_pow_pos _)

theorem units_lt_units_iff {x y : BitVec F.w} (hx : signField F x = 0#1) (hy : signField F y = 0#1) :
    units F x < units F y ↔ x < y := by
  rcases BitVec.lt_trichotomy x y with h | rfl | h
  · exact iff_of_true (units_lt_units hx hy h) h
  · exact iff_of_false (lt_irrefl _) (BitVec.lt_irrefl _)
  · exact iff_of_false (units_lt_units hy hx h).asymm (BitVec.lt_asymm h)

/-- With sign 0 the number is the units times a positive constant. -/
theorem rat_lt_rat_iff (hF : 0 < F.ew) {x y : BitVec F.w} {u v : ℚ} (hx : signField F x = 0#1)
    (hy : signField F y = 0#1) (hu : (valueOf F x).rat? = some u) (hv : (valueOf F y).rat? = some v) :
    u < v ↔ x < y := by
  rw [rat_eq_units hF hu, rat_eq_units hF hv, hx, hy, mul_lt_mul_iff_of_pos_right smallestPositive_pos,
    ← units_lt_units_iff hx hy]
  simp

/-- Below `EXP_MASK` lie, with sign 0, exactly the patterns whose stored exponent is not all ones. -/
theorem lt_expMask_iff {x : BitVec F.w} (hx : signField F x = 0#1) :
    x < expMask F ↔ (expField F x).toNat ≠ emaxField F := by
  rw [BitVec.lt_def, toNat_expMask, ← Nat.div_lt_iff_lt_mul (Nat.two_pow_pos _), ← expField_eq_div hx]
  exact (expField_le x).lt_iff_ne

/-- With sign 0 the one infinity is `EXP_MASK`. -/
theorem classify_inf_iff_eq_expMask {x : BitVec F.w} (hx : signField F x = 0#1) :
    classify F x = .inf ↔ x = expMask F := by
  have hnat : x = expMask F ↔ (expField F x).toNat * 2 ^ F.mw + (mantField F x).toNat = emaxField F * 2 ^ F.mw := by
    rw [← BitVec.toNat_inj, toNat_expMask, toNat_of_signField_zero hx]
  rw [classify_inf]
  constructor
  · rintro ⟨hexp, hmant⟩
    rw [hnat, hexp, hmant, Nat.add_zero]
  · intro h
    have hexp : (expField F x).toNat = emaxField F := by
      rw [h]; exact toNat_expField_eq_emaxField_iff.2 expField_expMask
    rw [hnat, hexp] at h
    exact ⟨hexp, by omega⟩

/-- A pattern with a number has no all-ones exponent. -/
theorem expField_ne_of_rat {x : BitVec F.w} {u : ℚ} (h : (valueOf F x).rat? = some u) :
    (expField F x).toNat ≠ emaxField F := by
  intro hexp
  by_cases hmant : (mantField F x).toNat = 0
  · rw [valueOf_inf (classify_inf.2 ⟨hexp, hmant⟩)] at h; cases h
  · rw [valueOf_nan (classify_nan.2 ⟨hexp, hmant⟩)] at h; cases h

end

/-! ### The statements -/

/-- Settles O4: the split of a packed word and the packing of a split are lemmas on the fields, and packing appends
words, which is the or of them shifted. -/
theorem packIsTheInverseOfTheFieldSplit : Obligations.PackIsTheInverseOfTheFieldSplit :=
  fun _ => ⟨pack_fields, fun s e f =>
    ⟨signField_pack s e f, expField_pack s e f, mantField_pack s e f, pack_eq_or_shiftLeft s e f⟩⟩

/-- Settles O5: the fields of a row name its class, each class has its value, and every value is a whole number of
smallest positive ones. -/
theorem valueFollowsTheClassTable : Obligations.ValueFollowsTheClassTable := by
  refine ⟨fun F hF x => ?_, fun x v => smallestPositive_le (F := fmtS) (by decide),
    fun x v => smallestPositive_le (F := fmtD) (by decide), ?_, ?_⟩
  · have hew : 0 < F.ew := (one_lt_ew hF).le
    exact ⟨fun h => valueOf_zero ((classify_zero hew).2 h), fun h => valueOf_subnormal ((classify_subnormal hew).2 h),
      fun h => valueOf_normal (classify_normal_iff_range.2 h), fun h => valueOf_inf (classify_inf.2 h),
      fun h => valueOf_nan (classify_nan.2 h)⟩
  · exact valueOf_of_units_eq_one (F := fmtS) (by decide) (by decide) (by decide) (by decide)
  · exact valueOf_of_units_eq_one (F := fmtD) (by decide) (by decide) (by decide) (by decide)

/-- Settles O6: a pattern is normal off both ends of the stored field, and `2^EW - 1` is `2*BIAS + 1`. -/
theorem normalExponentRange : Obligations.NormalExponentRange := by
  refine ⟨fun x => classify_normal_iff_range (F := fmtS), fun x => classify_normal_iff_range (F := fmtD),
    fun x => trueExp_range_of_normal (F := fmtS) (by decide), fun x => trueExp_range_of_normal (F := fmtD) (by decide),
    fun F hF => ⟨?_, fun x => trueExp_range_of_normal (one_lt_ew hF)⟩⟩
  have hbias := (emaxField_eq_two_bias (one_lt_ew hF)).1
  rw [emaxField] at hbias
  rw [maxExp]; omega

/-- Settles O7: with sign 0 the value is a number of units that grows with the pattern, and `EXP_MASK` is the first
pattern whose stored exponent is all ones. -/
theorem valueOrderIsUnsignedOrder : Obligations.ValueOrderIsUnsignedOrder := by
  intro F hF
  refine ⟨fun x y u v hx hy => rat_lt_rat_iff (one_lt_ew hF).le hx hy, fun x hx => ?_, fun x u hx hu => ?_⟩
  · rw [valueOf_eq_inf_iff, classify_inf_iff_eq_expMask hx, hx]; simp
  · exact (lt_expMask_iff hx).2 (expField_ne_of_rat hu)

/-- Settles O10: `uexp` is `efield - BIAS`, so it meets a sentinel only where `efield` is at that end. -/
theorem trueExponentAndItsSentinels : Obligations.TrueExponentAndItsSentinels := by
  intro F hF
  have hew := one_lt_ew hF
  exact ⟨rfl, rfl, fun x => ⟨rfl, trueExp_eq_expDenorm_iff, trueExp_eq_expNanInf_iff hew.le,
    fun hzero hmax => trueExp_range hew hmax hzero⟩⟩

/-- Settles O2: the numbers of both formats are computed, and the shift formulas hold at every format. -/
theorem masksAreTheirNumbers : Obligations.MasksAreTheirNumbers :=
  ⟨by decide, by decide, fun _ _ => ⟨ofNat_shiftLeft .., ofNat_shiftLeft .., rfl, rfl, rfl⟩⟩

end Sys2Proof.Machine

/-!
PROOFS of the statements about 41_decomposer.md: the fields and the masks (R111 to R113), the classes (R116, R117), the
ranges of the record (R110), its significand and exponent in each class (R118 to R120), its laws (R123), and the two
rules `DEC.S` and `DEC.D` (R121, R122).
-/

namespace Sys2Proof.Machine

section

variable {F : Format}

/-! ### The masks as packed words -/

theorem pack_and_pack (s s' : BitVec 1) (e e' : BitVec F.ew) (f f' : BitVec F.mw) :
    pack F s e f &&& pack F s' e' f' = pack F (s &&& s') (e &&& e') (f &&& f') := by
  simp only [pack, BitVec.and_append]

theorem pack_or_pack (s s' : BitVec 1) (e e' : BitVec F.ew) (f f' : BitVec F.mw) :
    pack F s e f ||| pack F s' e' f' = pack F (s ||| s') (e ||| e') (f ||| f') := by
  simp only [pack, BitVec.or_append]

theorem pack_xor_pack (s s' : BitVec 1) (e e' : BitVec F.ew) (f f' : BitVec F.mw) :
    pack F s e f ^^^ pack F s' e' f' = pack F (s ^^^ s') (e ^^^ e') (f ^^^ f') := by
  simp only [pack, BitVec.xor_append]

theorem pack_zero : pack F 0#1 0#F.ew 0#F.mw = 0#F.w := by
  apply BitVec.eq_of_toNat_eq; simp [toNat_pack]

theorem pack_allOnes : pack F 1#1 (BitVec.allOnes F.ew) (BitVec.allOnes F.mw) = BitVec.allOnes F.w := by
  have hone : 1#1 = ~~~ 0#1 := rfl
  rw [hone, ← BitVec.not_zero, ← BitVec.not_zero, ← BitVec.not_zero, ← pack_zero]
  simp only [pack, BitVec.not_append]

/-- A mantissa field alone in a word. -/
theorem pack_mantissa (f : BitVec F.mw) : pack F 0#1 0#F.ew f = f.setWidth F.w := by
  have hlt : f.toNat < 2 ^ F.w := f.isLt.trans_le (Nat.pow_le_pow_right two_pos (by rw [Format.w]; omega))
  apply BitVec.eq_of_toNat_eq
  rw [toNat_pack, BitVec.toNat_setWidth, Nat.mod_eq_of_lt hlt]; simp

/-- A stored exponent alone in a word, moved down to bit 0. -/
theorem pack_exponent_shiftRight (e : BitVec F.ew) : pack F 0#1 e 0#F.mw >>> F.mw = e.setWidth F.w := by
  have hlt : e.toNat < 2 ^ F.w := e.isLt.trans_le (Nat.pow_le_pow_right two_pos (by rw [Format.w]; omega))
  apply BitVec.eq_of_toNat_eq
  rw [BitVec.toNat_ushiftRight, toNat_pack, BitVec.toNat_setWidth, Nat.mod_eq_of_lt hlt]
  simp [Nat.shiftRight_eq_div_pow]

theorem signMask_eq_pack : signMask F = pack F 1#1 0#F.ew 0#F.mw := by
  have hw : F.w - 1 = F.ew + F.mw := by rw [Format.w]; omega
  have hlt : 2 ^ (F.ew + F.mw) < 2 ^ F.w := Nat.pow_lt_pow_right one_lt_two (by rw [Format.w]; omega)
  apply BitVec.eq_of_toNat_eq
  rw [signMask, hw, Nat.one_shiftLeft, BitVec.toNat_ofNat, Nat.mod_eq_of_lt hlt, toNat_pack]
  simp [pow_add]

theorem expMask_eq_pack : expMask F = pack F 0#1 (BitVec.allOnes F.ew) 0#F.mw := by
  apply BitVec.eq_of_toNat_eq
  rw [toNat_expMask, toNat_pack, BitVec.toNat_allOnes, emaxField]; simp

theorem mantMask_eq_pack : mantMask F = pack F 0#1 0#F.ew (BitVec.allOnes F.mw) := by
  rw [pack_mantissa]
  apply BitVec.eq_of_toNat_eq
  rw [mantMask, BitVec.toNat_ofNat, BitVec.toNat_setWidth, BitVec.toNat_allOnes]

/-- What `SIGN_MASK` leaves of a word (R111). -/
theorem and_signMask (x : BitVec F.w) : x &&& signMask F = pack F (signField F x) 0#F.ew 0#F.mw := by
  have hone : signField F x &&& 1#1 = signField F x := BitVec.and_allOnes
  conv_lhs => rw [← pack_fields x, signMask_eq_pack, pack_and_pack, hone, BitVec.and_zero, BitVec.and_zero]

/-- What `EXP_MASK` leaves of a word (R112). -/
theorem and_expMask (x : BitVec F.w) : x &&& expMask F = pack F 0#1 (expField F x) 0#F.mw := by
  conv_lhs => rw [← pack_fields x, expMask_eq_pack, pack_and_pack, BitVec.and_zero, BitVec.and_allOnes,
    BitVec.and_zero]

/-- What `MANT_MASK` leaves of a word (R113). -/
theorem and_mantMask (x : BitVec F.w) : x &&& mantMask F = pack F 0#1 0#F.ew (mantField F x) := by
  conv_lhs => rw [← pack_fields x, mantMask_eq_pack, pack_and_pack, BitVec.and_zero, BitVec.and_zero,
    BitVec.and_allOnes]

/-- Flipping the top bit flips the sign and nothing else. -/
theorem xor_signMask (x : BitVec F.w) :
    x ^^^ signMask F = pack F (~~~ signField F x) (expField F x) (mantField F x) := by
  have hflip : signField F x ^^^ 1#1 = ~~~ signField F x := BitVec.xor_allOnes
  conv_lhs => rw [← pack_fields x, signMask_eq_pack, pack_xor_pack, hflip, BitVec.xor_zero, BitVec.xor_zero]

theorem signField_eq_one_iff (x : BitVec F.w) : signField F x = 1#1 ↔ x &&& signMask F ≠ 0#F.w := by
  rw [and_signMask, ← pack_zero]
  constructor
  · intro hs hpack
    have hzero := congrArg (signField F) hpack
    rw [signField_pack, signField_pack, hs] at hzero
    exact absurd hzero (by decide)
  · intro hne
    exact (BitVec.eq_zero_or_eq_one _).resolve_left fun hs => hne (by rw [hs])

/-! ### The record is a function of the fields -/

/-- Two patterns with the same exponent and mantissa fields differ in the sign of their records at most (R116). -/
theorem decompose_of_same_fields {x y : BitVec F.w} (he : expField F y = expField F x)
    (hm : mantField F y = mantField F x) : decompose F y = { decompose F x with sign := signField F y } := by
  simp only [decompose, significand, normExp, normShift, trueExp, classify, he, hm]

/-- Only the pattern itself has its sign and exponent, and a given mantissa field. -/
theorem pack_eq_iff_mantField {x : BitVec F.w} {f : BitVec F.mw} :
    pack F (signField F x) (expField F x) f = x ↔ f = mantField F x := by
  constructor
  · intro h
    rw [← mantField_pack (signField F x) (expField F x) f, h]
  · rintro rfl
    exact pack_fields x

/-! ### Both classes at either end of the stored exponent -/

theorem expField_eq_zero_iff (hF : 0 < F.ew) {x : BitVec F.w} :
    (expField F x).toNat = 0 ↔ classify F x = .zero ∨ classify F x = .subnormal := by
  rw [classify_zero hF, classify_subnormal hF]; tauto

theorem expField_eq_emaxField_iff {x : BitVec F.w} :
    (expField F x).toNat = emaxField F ↔ classify F x = .inf ∨ classify F x = .nan := by
  rw [classify_inf, classify_nan]; tauto

/-- Under its sign a normal pattern is below `EXP_MASK`. -/
theorem magnitude_lt_of_normal {x : BitVec F.w} (h : classify F x = .normal) :
    x.toNat % 2 ^ (F.ew + F.mw) < emaxField F * 2 ^ F.mw := by
  have hexp : (expField F x).toNat + 1 ≤ emaxField F :=
    Nat.lt_of_le_of_ne (expField_le x) (classify_normal.1 h).1
  have hmant := (mantField F x).isLt
  calc x.toNat % 2 ^ (F.ew + F.mw)
    _ = (2 ^ (F.ew + F.mw) * (signField F x).toNat + ((expField F x).toNat * 2 ^ F.mw + (mantField F x).toNat)) %
          2 ^ (F.ew + F.mw) := by rw [toNat_eq_fields x, pow_add]; congr 1; ring
    _ ≤ (expField F x).toNat * 2 ^ F.mw + (mantField F x).toNat := by
          rw [Nat.mul_add_mod]; exact Nat.mod_le _ _
    _ < ((expField F x).toNat + 1) * 2 ^ F.mw := by rw [Nat.add_one_mul]; omega
    _ ≤ emaxField F * 2 ^ F.mw := Nat.mul_le_mul_right _ hexp

/-! ### Ranges -/

/-- Sentinels included, the true exponent lies in `[-BIAS, BIAS+1]` (R110). -/
theorem trueExp_bounds (hF : 1 < F.ew) (x : BitVec F.w) :
    -(bias F : Int) ≤ trueExp F x ∧ trueExp F x ≤ bias F + 1 := by
  have hbias := (emaxField_eq_two_bias hF).1
  have hle := expField_le x
  rw [trueExp]; omega

/-- Renormalisation takes the exponent at most `MW` below that of a subnormal (R110). -/
theorem normExp_bounds (hF : 1 < F.ew) (hmw : 0 < F.mw) (x : BitVec F.w) :
    1 - (bias F : Int) - F.mw ≤ normExp F x ∧ normExp F x ≤ bias F + 1 := by
  by_cases h : classify F x = .subnormal
  · obtain ⟨hlow, hhigh⟩ := normExp_range hF (.inl h)
    exact ⟨hlow, hhigh.trans (by omega)⟩
  · obtain ⟨hlow, hhigh⟩ := trueExp_bounds hF x
    rw [normExp_other h]; omega

/-- The table of R110, as formulas in the format: a word is bounded by its width, a number by its rule. -/
theorem record_ranges (hF : 1 < F.ew) (hmw : 0 < F.mw) (x : BitVec F.w) :
    let d := decompose F x
    d.sign.toNat ≤ 1 ∧ d.efield.toNat ≤ 2 ^ F.ew - 1 ∧ d.mfield.toNat ≤ 2 ^ F.mw - 1 ∧
    -(bias F : Int) ≤ d.uexp ∧ d.uexp ≤ bias F + 1 ∧ d.sh ≤ F.mw ∧
    1 - (bias F : Int) - F.mw ≤ d.nexp ∧ d.nexp ≤ bias F + 1 ∧ d.sig.toNat ≤ 2 ^ (F.mw + 1) - 1 := by
  obtain ⟨hu, hu'⟩ := trueExp_bounds hF x
  obtain ⟨hn, hn'⟩ := normExp_bounds hF hmw x
  exact ⟨Nat.le_sub_one_of_lt (signField F x).isLt, Nat.le_sub_one_of_lt (expField F x).isLt,
    Nat.le_sub_one_of_lt (mantField F x).isLt, hu, hu', normShift_le hF.le x, hn, hn',
    Nat.le_sub_one_of_lt (significand F x).isLt⟩

/-! ### The shift and the significand, class by class -/

theorem normShift_range_of_subnormal (hF : 0 < F.ew) {x : BitVec F.w} (h : classify F x = .subnormal) :
    1 ≤ normShift F x ∧ normShift F x ≤ F.mw := by
  obtain ⟨-, hlow, hhigh, -⟩ := subnormalShift_spec ((classify_subnormal hF).1 h).2
  rw [normShift_subnormal h]; exact ⟨hlow, hhigh⟩

/-- The subtraction of R118 does not go below zero: more than `EW` zeros lead a subnormal's mantissa field. -/
theorem normShift_eq_clz_sub (hF : 0 < F.ew) {x : BitVec F.w} (h : classify F x = .subnormal) :
    (normShift F x : Int) = (clz ((mantField F x).setWidth F.w) : Int) - F.ew := by
  obtain ⟨hclz, -⟩ := subnormalShift_spec ((classify_subnormal hF).1 h).2
  rw [normShift_subnormal h, subnormalShift]; omega

theorem normShift_ne_zero_iff (hF : 0 < F.ew) {x : BitVec F.w} :
    normShift F x ≠ 0 ↔ classify F x = .subnormal := by
  constructor
  · intro hne
    by_contra h
    exact hne (normShift_other h)
  · intro h
    have := (normShift_range_of_subnormal hF h).1
    omega

theorem significand_other {x : BitVec F.w} (hs : classify F x ≠ .subnormal) (hn : classify F x ≠ .normal) :
    significand F x = (mantField F x).setWidth (F.mw + 1) := by
  cases hc : classify F x with
  | subnormal => exact absurd hc hs
  | normal => exact absurd hc hn
  | zero => simp only [significand, hc]
  | inf => simp only [significand, hc]
  | nan => simp only [significand, hc]

theorem setWidth_mantissa_eq_zero {f : BitVec F.mw} (h : f.toNat = 0) : f.setWidth (F.mw + 1) = 0#(F.mw + 1) := by
  have hzero : f = 0#F.mw := BitVec.eq_of_toNat_eq h
  rw [hzero, BitVec.setWidth_zero]

/-- Below its leading bit the significand of a normal pattern is the mantissa field. -/
theorem setWidth_significand_normal {x : BitVec F.w} (h : classify F x = .normal) :
    (significand F x).setWidth F.mw = mantField F x := by
  apply BitVec.eq_of_toNat_eq
  rw [BitVec.toNat_setWidth, significand_normal h, Nat.add_mod_left, Nat.mod_eq_of_lt (mantField F x).isLt]

/-- A left shift never gives a nonzero field back: `f * 2^n = f` modulo `2^MW` would make `2^MW` divide `f`, since
`2^n - 1` is odd. -/
theorem mul_two_pow_mod_ne {m n f : Nat} (hn : n ≠ 0) (hf : f ≠ 0) (hlt : f < 2 ^ m) : f * 2 ^ n % 2 ^ m ≠ f := by
  intro h
  have hmod : f ≡ f * 2 ^ n [MOD 2 ^ m] := by rw [Nat.ModEq, h, Nat.mod_eq_of_lt hlt]
  have hdvd : 2 ^ m ∣ f * (2 ^ n - 1) := by
    rw [Nat.mul_sub_one]
    exact (Nat.modEq_iff_dvd' (Nat.le_mul_of_pos_right f (Nat.two_pow_pos n))).1 hmod
  have hodd : Odd (2 ^ n - 1) := Nat.Even.sub_odd (Nat.one_le_two_pow) (Nat.even_pow.2 ⟨even_two, hn⟩) odd_one
  have hcoprime : (2 ^ m).Coprime (2 ^ n - 1) := (Nat.coprime_two_left.2 hodd).pow_left m
  exact absurd (Nat.le_of_dvd (Nat.pos_of_ne_zero hf) (hcoprime.dvd_of_dvd_mul_right hdvd)) (by omega)

theorem setWidth_significand_subnormal (hF : 0 < F.ew) {x : BitVec F.w} (h : classify F x = .subnormal) :
    (significand F x).setWidth F.mw ≠ mantField F x := by
  intro heq
  have hnat := congrArg BitVec.toNat heq
  rw [BitVec.toNat_setWidth, significand_subnormal hF h] at hnat
  exact mul_two_pow_mod_ne ((normShift_ne_zero_iff hF).2 h) ((classify_subnormal hF).1 h).2 (mantField F x).isLt hnat

/-- Dropping the leading bit of the significand gives the mantissa field back where it was not shifted. -/
theorem setWidth_significand_eq_iff (hF : 0 < F.ew) {x : BitVec F.w} :
    (significand F x).setWidth F.mw = mantField F x ↔ classify F x ≠ .subnormal := by
  by_cases hs : classify F x = .subnormal
  · exact iff_of_false (setWidth_significand_subnormal hF hs) (not_not.2 hs)
  · refine iff_of_true ?_ hs
    by_cases hn : classify F x = .normal
    · exact setWidth_significand_normal hn
    · rw [significand_other hs hn, BitVec.setWidth_setWidth_of_le _ (Nat.le_succ _), BitVec.setWidth_eq]

/-! ### The value -/

theorem signFactor_ne_zero (s : BitVec 1) : signFactor s ≠ 0 := by
  rcases signFactor_cases s with h | h <;> rw [h] <;> norm_num

theorem signFactor_eq_neg_one_pow (s : BitVec 1) : signFactor s = (-1) ^ s.toNat := by
  rcases BitVec.eq_zero_or_eq_one s with rfl | rfl <;> simp [signFactor]

/-- Renormalisation keeps the value: it only splits it differently (R118). -/
theorem renormalisation_keeps_value (hF : 1 < F.ew) {x : BitVec F.w} (h : classify F x = .subnormal) :
    ((mantField F x).toNat : ℚ) / 2 ^ F.mw * 2 ^ (1 - (bias F : Int)) =
      ((significand F x).toNat : ℚ) / 2 ^ F.mw * 2 ^ normExp F x := by
  have hvalue := (valueOf_subnormal h).symm.trans (value_of_significand hF (.inl h))
  rw [FpValue.finite.injEq, mul_assoc, mul_assoc] at hvalue
  exact mul_left_cancel₀ (signFactor_ne_zero _) hvalue

/-- The value of a finite nonzero pattern from its record (R123(b)). -/
theorem value_of_record (hF : 1 < F.ew) {x : BitVec F.w} (h : classify F x = .subnormal ∨ classify F x = .normal) :
    valueOf F x = .finite
      ((-1) ^ (signField F x).toNat * ((significand F x).toNat : ℚ) * 2 ^ (normExp F x - (F.mw : Int))) := by
  rw [value_of_significand hF h, signFactor_eq_neg_one_pow, zpow_sub₀ two_ne_zero, zpow_natCast]
  congr 1; ring

/-- The finite nonzero values are those of the two classes `SUBNORMAL` and `NORMAL`. -/
theorem finite_nonzero_iff (hF : 1 < F.ew) {x : BitVec F.w} :
    classify F x = .subnormal ∨ classify F x = .normal ↔ ∃ v, valueOf F x = .finite v ∧ v ≠ 0 := by
  constructor
  · intro h
    have hsig : ((significand F x).toNat : ℚ) ≠ 0 := by
      have := (Nat.two_pow_pos F.mw).trans_le (significand_bounds hF.le h).1
      exact_mod_cast this.ne'
    exact ⟨_, value_of_record hF h, by positivity⟩
  · rintro ⟨v, hv, -⟩
    cases hc : classify F x with
    | zero => rw [valueOf_zero hc] at hv; cases hv
    | subnormal => exact .inl rfl
    | normal => exact .inr rfl
    | inf => rw [valueOf_inf hc] at hv; cases hv
    | nan => rw [valueOf_nan hc] at hv; cases hv

/-! ### The record in the form of the rules R121 and R122 -/

/-- The class with its tests on the fields as words, as the pseudocode has them. -/
theorem classify_eq_ite (x : BitVec F.w) :
    classify F x =
      if expField F x = BitVec.ofNat F.ew (emaxField F) then (if mantField F x = 0#F.mw then .inf else .nan)
      else if expField F x = 0#F.ew then (if mantField F x = 0#F.mw then .zero else .subnormal)
      else .normal := by
  have hmax : emaxField F < 2 ^ F.ew := Nat.sub_one_lt (Nat.two_pow_pos F.ew).ne'
  simp only [classify, classOf, ← BitVec.toNat_inj, BitVec.toNat_ofNat, Nat.mod_eq_of_lt hmax, Nat.zero_mod]

/-- The record with one branch for the shifted significand, one for the implicit bit and one for neither, as the
pseudocode has them. -/
theorem decompose_eq_ite (x : BitVec F.w) :
    decompose F x =
      if classify F x = .subnormal then
        { sign := signField F x, efield := expField F x, mfield := mantField F x, cls := classify F x,
          uexp := trueExp F x, sh := subnormalShift F (mantField F x),
          nexp := 1 - (bias F : Int) - subnormalShift F (mantField F x),
          sig := (mantField F x).setWidth (F.mw + 1) <<< subnormalShift F (mantField F x) }
      else if classify F x = .normal then
        { sign := signField F x, efield := expField F x, mfield := mantField F x, cls := classify F x,
          uexp := trueExp F x, sh := 0, nexp := trueExp F x,
          sig := BitVec.ofNat (F.mw + 1) (implicitBit F) ||| (mantField F x).setWidth (F.mw + 1) }
      else
        { sign := signField F x, efield := expField F x, mfield := mantField F x, cls := classify F x,
          uexp := trueExp F x, sh := 0, nexp := trueExp F x, sig := (mantField F x).setWidth (F.mw + 1) } := by
  cases hc : classify F x <;> simp [decompose, normShift, normExp, significand, hc]

end

theorem ruleR121_eq_decompose (x : BitVec 32) : ruleR121 x = decompose fmtS x := by
  rw [decompose_eq_ite (F := fmtS), classify_eq_ite (F := fmtS)]; rfl

theorem ruleR122_eq_decompose (x : BitVec 64) : ruleR122 x = decompose fmtD x := by
  rw [decompose_eq_ite (F := fmtD), classify_eq_ite (F := fmtD)]; rfl

/-! ### The statements -/

/-- Settles O3: the masks are packed words of zeros and ones, so they act on a word field by field. -/
theorem fieldsAreWhatTheMasksCover : Obligations.FieldsAreWhatTheMasksCover := by
  refine ⟨fun x => ⟨rfl, rfl, rfl⟩, fun x => ⟨rfl, rfl, rfl⟩, fun F _ => ⟨fun x => ?_, ?_, ?_, ?_, ?_⟩⟩
  · refine ⟨rfl, rfl, rfl, signField_eq_one_iff x, ?_, ?_⟩
    · rw [and_expMask, pack_exponent_shiftRight]
    · rw [and_mantMask, pack_mantissa]
  · rw [signMask_eq_pack, expMask_eq_pack, pack_and_pack]; simp [pack_zero]
  · rw [signMask_eq_pack, mantMask_eq_pack, pack_and_pack]; simp [pack_zero]
  · rw [expMask_eq_pack, mantMask_eq_pack, pack_and_pack]; simp [pack_zero]
  · rw [signMask_eq_pack, expMask_eq_pack, mantMask_eq_pack, pack_or_pack, pack_or_pack]; simp [pack_allOnes]

/-- Settles O11: the numbers for S and for D are the formulas of the table at these formats. -/
theorem recordFieldsLieInTheirRanges : Obligations.RecordFieldsLieInTheirRanges := by
  refine ⟨record_ranges (F := fmtS) (by decide) (by decide), record_ranges (F := fmtD) (by decide) (by decide),
    fun F hF x => ?_⟩
  have hmw : 0 < F.mw := by rcases hF with rfl | rfl <;> decide
  obtain ⟨-, -, -, hu, hu', hsh, hn, hn', -⟩ := record_ranges (one_lt_ew hF) hmw x
  exact ⟨hsh, hu, hu', hn, hn'⟩

/-- Settles O12: the shift takes the leading bit to bit `MW`, and each place shifted takes one off the exponent. -/
theorem subnormalIsRenormalised : Obligations.SubnormalIsRenormalised := by
  intro F hF x h
  have hew := one_lt_ew hF
  replace h : classify F x = .subnormal := h
  obtain ⟨hsh, hsh'⟩ := normShift_range_of_subnormal hew.le h
  obtain ⟨hsig, hsig'⟩ := significand_bounds hew.le (.inl h)
  have hexp := normExp_subnormal h
  refine ⟨normShift_eq_clz_sub hew.le h, hsh, hsh', significand_subnormal hew.le h, hsig, hsig', hexp,
    (normExp_range hew (.inl h)).1, ?_, renormalisation_keeps_value hew h, fun hs => ?_⟩
  · show normExp F x ≤ -(bias F : Int)
    omega
  · have hzero : expField F x = 0#F.ew :=
      BitVec.eq_of_toNat_eq (by simpa using ((classify_subnormal hew.le).1 h).1)
    conv_lhs => rw [← pack_fields x, hs, hzero]
    exact pack_mantissa (mantField F x)

/-- Settles O13: the implicit bit stands above the mantissa field, and neither is shifted. -/
theorem normalGetsItsImplicitBit : Obligations.NormalGetsItsImplicitBit := by
  intro F hF x h
  replace h : classify F x = .normal := h
  have hs : classify F x ≠ .subnormal := by rw [h]; decide
  exact ⟨normShift_other hs, normExp_other hs, rfl, by simp only [decompose, significand, h], significand_normal h,
    value_of_significand (one_lt_ew hF) (.inr h)⟩

/-- Settles O14: in these classes the significand is the mantissa field, and it loses the field only where it was
shifted. -/
theorem otherClassesKeepTheirField : Obligations.OtherClassesKeepTheirField := by
  intro F hF x
  have hew := (one_lt_ew hF).le
  refine ⟨fun h => ?_, pack_eq_iff_mantField.trans (setWidth_significand_eq_iff hew)⟩
  replace h : classify F x = .zero ∨ classify F x = .inf ∨ classify F x = .nan := h
  obtain ⟨hs, hn⟩ : classify F x ≠ .subnormal ∧ classify F x ≠ .normal := by
    rcases h with h | h | h <;> simp [h]
  have hexp : normExp F x = trueExp F x := normExp_other hs
  have hsig := significand_other hs hn
  refine ⟨normShift_other hs, hexp, hsig, fun hc => ?_, fun hc => ?_, fun hc => ?_⟩
  · obtain ⟨he, hm⟩ := (classify_zero hew).1 hc
    exact ⟨hexp.trans (trueExp_eq_expDenorm_iff.2 he), hsig.trans (setWidth_mantissa_eq_zero hm)⟩
  · obtain ⟨he, hm⟩ := classify_inf.1 hc
    exact ⟨hexp.trans ((trueExp_eq_expNanInf_iff hew).2 he), hsig.trans (setWidth_mantissa_eq_zero hm)⟩
  · refine ⟨hexp.trans ((trueExp_eq_expNanInf_iff hew).2 (classify_nan.1 hc).1), ?_⟩
    show (significand F x).getLsbD F.mw = false
    rw [hsig, BitVec.getLsbD_setWidth, BitVec.getLsbD_of_ge _ _ le_rfl, Bool.and_false]

/-- Settles O15: the rule's record is the decomposition, `exec` only answers with it, and the corner cases are
computed. -/
theorem decSAnswersWithItsRecord : Obligations.DecSAnswersWithItsRecord := by
  refine ⟨fun x s => ?_, decode_code_decS, by decide, by decide, by decide, by decide, ?_, ?_, ?_, fun x h => ?_,
    by decide, by decide⟩
  · rw [ruleR121_eq_decompose]; exact exec_eq_next_answered_answer (.decS x) s
  · rintro d rfl; decide
  · rintro d rfl; decide
  · rintro d rfl; decide
  · rw [ruleR121_eq_decompose] at h
    exact Nat.le_sub_one_of_lt (magnitude_lt_of_normal (F := fmtS) h)

/-- Settles O16, by the same lemmas at format D: the rule's record is the decomposition. -/
theorem decDAnswersWithItsRecord : Obligations.DecDAnswersWithItsRecord := by
  refine ⟨fun x s => ?_, decode_code_decD, ?_, ?_, ?_, fun x h => ?_, by decide⟩
  · rw [ruleR122_eq_decompose]; exact exec_eq_next_answered_answer (.decD x) s
  · rintro d rfl; decide
  · rintro d rfl; decide
  · rintro d rfl; decide
  · rw [ruleR122_eq_decompose] at h
    exact Nat.le_sub_one_of_lt (magnitude_lt_of_normal (F := fmtD) h)

/-- Settles O17, law by law; flipping the sign bit leaves both other fields, so only the sign of the record changes. -/
theorem recordLaws : Obligations.RecordLaws := by
  intro F hF x
  have hew := one_lt_ew hF
  refine ⟨pack_fields x, ⟨finite_nonzero_iff hew, fun h => ?_⟩, ⟨normShift_ne_zero_iff hew.le, fun hsh => ?_⟩,
    fun h => ⟨setWidth_significand_normal h, normExp_other (fun hs => ?_)⟩, ⟨?_, ?_⟩, ?_⟩
  · obtain ⟨hlow, hhigh⟩ := significand_bounds hew.le h
    exact ⟨hlow, hhigh, value_of_record hew h⟩
  · have hsig := significand_subnormal hew.le ((normShift_ne_zero_iff hew.le).1 hsh)
    exact ⟨hsig.trans (Nat.shiftLeft_eq _ _).symm, Dvd.intro_left _ hsig.symm⟩
  · exact absurd (h.symm.trans hs) (by decide)
  · exact trueExp_eq_expDenorm_iff.trans (expField_eq_zero_iff hew.le)
  · exact (trueExp_eq_expNanInf_iff hew.le).trans expField_eq_emaxField_iff
  · have hsign : signField F (x ^^^ signMask F) = ~~~ signField F x := by rw [xor_signMask, signField_pack]
    rw [decompose_of_same_fields (x := x) (by rw [xor_signMask, expField_pack]) (by rw [xor_signMask, mantField_pack]),
      hsign]
    rfl

/-- Settles O8: each class has its condition, and the class is a function of the two fields. -/
theorem classIsDecidedByExponentAndMantissa : Obligations.ClassIsDecidedByExponentAndMantissa := by
  intro F hF x
  have hew := (one_lt_ew hF).le
  exact ⟨classify_inf, classify_nan, classify_zero hew, classify_subnormal hew, classify_normal,
    fun y he hm => by rw [decompose_of_same_fields he hm]⟩

/-- Settles O9: the codes are read off, and none is above 4. -/
theorem classCodesOnWires : Obligations.ClassCodesOnWires := by
  refine ⟨rfl, rfl, rfl, rfl, rfl, fun c => ?_⟩
  have hle := code_le_four c
  exact ⟨fun h => absurd (h ▸ hle) (by decide), fun h => absurd (h ▸ hle) (by decide),
    fun h => absurd (h ▸ hle) (by decide)⟩

end Sys2Proof.Machine

/-!
PROOFS of the statements about 42_sqrt_algorithm.md: the six cases and the ordered tests (R140, R142, R143, R157), the
digit recurrence and its bounds (R145 to R149, R154), rounding and reassembly (R150, R151), the contract and its proof
(R152, R153), and what follows from it (R155, R156).
-/

namespace Sys2Proof.Machine

/-! ### The iterations -/

section

variable {mw N k : Nat} {w : Work}

/-- The partial root is the integer root with its bits below the trial place cut off. -/
theorem Recurrence.q_eq_mul_sqrt_div (h : Recurrence mw N k w) :
    w.q = 2 ^ (mw + 2 - k) * (Nat.sqrt N / 2 ^ (mw + 2 - k)) := by
  obtain ⟨-, -, -, hle, hlt, c, hc⟩ := h
  generalize 2 ^ (mw + 2 - k) = B at hlt hc ⊢
  have hlow : B * c ≤ Nat.sqrt N := hc ▸ Nat.le_sqrt'.2 hle
  have hhigh : Nat.sqrt N < B * c + B := hc ▸ Nat.sqrt_lt'.2 hlt
  rw [Nat.div_eq_of_lt_le (by rwa [Nat.mul_comm]) (by rwa [Nat.add_one_mul, Nat.mul_comm]), hc]

/-- The form of the partial root in R149, in the reals. -/
theorem Recurrence.q_eq_mul_floor (h : Recurrence mw N k w) :
    w.q = 2 ^ (mw + 2 - k) * ⌊Real.sqrt N / (2 ^ (mw + 2 - k) : Nat)⌋₊ := by
  rw [Nat.floor_div_natCast, Real.nat_floor_real_sqrt_eq_nat_sqrt]
  exact h.q_eq_mul_sqrt_div

/-- The bits of the root tried so far lie at or above the trial place (R154). -/
theorem Recurrence.q_add_le (h : Recurrence mw N k w) (hN : N < 2 ^ (2 * mw + 4)) :
    w.q + 2 ^ (mw + 2 - k) ≤ 2 ^ (mw + 2) := by
  have hq : w.q < 2 ^ (mw + 2) := by
    refine lt_of_pow_lt_pow_left' 2 (h.sq_le.trans_lt (hN.trans_eq ?_))
    rw [← pow_mul]; congr 1; ring
  have hdvd : 2 ^ (mw + 2 - k) ∣ 2 ^ (mw + 2) := pow_dvd_pow 2 (Nat.sub_le _ _)
  obtain ⟨c, hc⟩ := h.dvd
  obtain ⟨d, hd⟩ := hdvd
  rw [hc, hd] at hq ⊢
  rw [← Nat.mul_add_one]
  exact Nat.mul_le_mul_left _ (Nat.lt_of_mul_lt_mul_left hq)

/-- `ix = 2 (N - q^2) / B`, the remainder counted in half units of the trial place (R154). -/
theorem Recurrence.ix_mul (h : Recurrence mw N k w) (hk : k ≤ mw + 2) :
    w.ix * 2 ^ (mw + 2 - k) = 2 * (N - w.q ^ 2) := by
  apply Nat.eq_of_mul_eq_mul_right (Nat.two_pow_pos k)
  calc w.ix * 2 ^ (mw + 2 - k) * 2 ^ k
    _ = w.ix * 2 ^ (mw + 1) * 2 := by
        rw [mul_assoc, ← pow_add, Nat.sub_add_cancel hk, pow_succ, mul_assoc]
    _ = 2 * (N - w.q ^ 2) * 2 ^ k := by rw [h.ix_eq]; ring

theorem Recurrence.ix_lt (h : Recurrence mw N k w) (hk : k ≤ mw + 2) :
    w.ix < 4 * w.q + 2 * 2 ^ (mw + 2 - k) := by
  have hix := h.ix_mul hk
  have hlt := h.lt_sq
  generalize 2 ^ (mw + 2 - k) = B at hix hlt ⊢
  have hrest : N - w.q ^ 2 < (2 * w.q + B) * B := by
    have : (w.q + B) ^ 2 = w.q ^ 2 + (2 * w.q + B) * B := by ring
    have := h.sq_le
    omega
  refine Nat.lt_of_mul_lt_mul_right (a := B) ?_
  calc w.ix * B
    _ = 2 * (N - w.q ^ 2) := hix
    _ < 2 * ((2 * w.q + B) * B) := by omega
    _ = (4 * w.q + 2 * B) * B := by ring

end

section

variable {F : Format} {sig2 : Nat}

theorem radicand_eq_shiftLeft (F : Format) (sig2 : Nat) :
    sig2 * 2 ^ (F.mw + 2) = (sig2 <<< 1) * 2 ^ (F.mw + 1) := by
  rw [Nat.shiftLeft_eq, pow_succ]; ring

theorem radicand_lt (h : sig2 < 2 ^ (F.mw + 2)) : sig2 * 2 ^ (F.mw + 2) < 2 ^ (2 * F.mw + 4) := by
  calc sig2 * 2 ^ (F.mw + 2)
    _ < 2 ^ (F.mw + 2) * 2 ^ (F.mw + 2) := Nat.mul_lt_mul_of_pos_right h (Nat.two_pow_pos _)
    _ = 2 ^ (2 * F.mw + 4) := by rw [← pow_add]; congr 1; ring

theorem le_radicand (h : 2 ^ F.mw ≤ sig2) : 2 ^ (2 * F.mw + 2) ≤ sig2 * 2 ^ (F.mw + 2) := by
  calc 2 ^ (2 * F.mw + 2)
    _ = 2 ^ F.mw * 2 ^ (F.mw + 2) := by rw [← pow_add]; congr 1; ring
    _ ≤ sig2 * 2 ^ (F.mw + 2) := Nat.mul_le_mul_right _ h

theorem four_dvd_radicand (F : Format) (sig2 : Nat) : 4 ∣ sig2 * 2 ^ (F.mw + 2) := by
  rw [pow_add]
  exact Dvd.intro_left (sig2 * 2 ^ F.mw) (by ring)

@[simp] theorem workStep_r (w : Work) : (workStep w).r = w.r >>> 1 := by
  rw [workStep]; split_ifs <;> rfl

/-- The trial bit has left the word after the last iteration. -/
theorem workRun_r_eq_zero (h : sig2 < 2 ^ (F.mw + 2)) : (workRun (workStart F sig2) (niter F)).r = 0 := by
  have hlast : (workRun (workStart F sig2) (F.mw + 1)).r = 2 ^ (F.mw + 1 - (F.mw + 1)) :=
    (recurrence_run F h (Nat.le_succ _)).r_eq le_rfl
  show (workStep (workRun (workStart F sig2) (F.mw + 1))).r = 0
  rw [workStep_r, hlast, Nat.sub_self]; rfl

/-- The integer root has its leading bit at bit `MW + 1`. -/
theorem sqrt_radicand_bounds (h1 : 2 ^ F.mw ≤ sig2) (h2 : sig2 < 2 ^ (F.mw + 2)) :
    2 ^ (F.mw + 1) ≤ Nat.sqrt (sig2 * 2 ^ (F.mw + 2)) ∧ Nat.sqrt (sig2 * 2 ^ (F.mw + 2)) < 2 ^ (F.mw + 2) := by
  constructor
  · rw [Nat.le_sqrt', ← pow_mul, show (F.mw + 1) * 2 = 2 * F.mw + 2 by ring]
    exact le_radicand h1
  · rw [Nat.sqrt_lt', ← pow_mul, show (F.mw + 2) * 2 = 2 * F.mw + 4 by ring]
    exact radicand_lt h2

/-- Nothing is left exactly where the radicand is a square (R149). -/
theorem ix_eq_zero_iff_square (h : sig2 < 2 ^ (F.mw + 2)) :
    (workRun (workStart F sig2) (niter F)).ix = 0 ↔ ∃ n, sig2 * 2 ^ (F.mw + 2) = n ^ 2 := by
  rw [(recurrence_end F h).2]
  generalize sig2 * 2 ^ (F.mw + 2) = N
  have hle := Nat.sqrt_le' N
  constructor
  · intro h0
    exact ⟨Nat.sqrt N, by omega⟩
  · rintro ⟨n, rfl⟩
    rw [Nat.sqrt_eq', Nat.sub_self]

/-- The largest remainder of any iteration, for a start an operand can give (R154). Above the last two places the bound
of `ix_lt` is enough; at the last but one the remainder is a multiple of 4; at the last the root is not all ones. -/
theorem ix_le_of_start (h1 : 2 ^ F.mw ≤ sig2) (h2 : sig2 ≤ 2 ^ (F.mw + 2) - 2) {k : Nat} (hk : k ≤ niter F) :
    (workRun (workStart F sig2) k).ix ≤ 2 ^ (F.mw + 4) - 8 := by
  have hpow : 2 ^ (F.mw + 4) = 4 * 2 ^ (F.mw + 2) := by rw [pow_add, pow_add]; ring
  have hstart : sig2 < 2 ^ (F.mw + 2) := by have := Nat.two_pow_pos (F.mw + 2); omega
  have hrun := recurrence_run F hstart hk
  have hq := hrun.q_add_le (radicand_lt hstart)
  have hix := hrun.ix_lt hk
  obtain hfar | rfl | rfl : k ≤ F.mw ∨ k = F.mw + 1 ∨ k = F.mw + 2 := by rw [niter] at hk; omega
  · have hplace : 2 ^ 2 ≤ 2 ^ (F.mw + 2 - k) := Nat.pow_le_pow_right two_pos (by omega)
    omega
  · have hplace : F.mw + 2 - (F.mw + 1) = 1 := by omega
    have hmul := hrun.ix_mul hk
    obtain ⟨c, hc⟩ := hrun.dvd
    obtain ⟨d, hd⟩ := four_dvd_radicand F sig2
    rw [hplace, pow_one] at hq hix hmul hc
    have hsq : (workRun (workStart F sig2) (F.mw + 1)).q ^ 2 = 4 * c ^ 2 := by rw [hc]; ring
    have hfour : 4 ∣ 2 ^ (F.mw + 2) := ⟨2 ^ F.mw, by rw [pow_add]; ring⟩
    omega
  · obtain ⟨-, hlt, hend, -, -, hroot, -⟩ := loop_end_and_rounding F h1 h2
    rw [niter] at hlt hend hroot
    have hnext : ((workRun (workStart F sig2) (F.mw + 2)).q + 1) ^ 2 =
        (workRun (workStart F sig2) (F.mw + 2)).q ^ 2 + 2 * (workRun (workStart F sig2) (F.mw + 2)).q + 1 := by ring
    omega

/-- R154, for every start and after every iteration. -/
theorem working_values_bounded (h : sig2 < 2 ^ (F.mw + 2)) {k : Nat} (hk : k ≤ niter F) :
    let w := workRun (workStart F sig2) k
    w.q ≤ 2 ^ (F.mw + 2) - 2 ^ (F.mw + 2 - k) ∧ w.s = 2 * w.q ∧ w.s < 2 ^ (F.mw + 3) ∧
    (k < niter F → w.s + w.r < 2 ^ (F.mw + 3)) ∧ w.ix < 2 ^ (F.mw + 4) := by
  intro w
  have hrun : Recurrence F.mw _ k w := recurrence_run F h hk
  have hq := hrun.q_add_le (radicand_lt h)
  have hix := hrun.ix_lt hk
  have hs := hrun.s_eq
  have hplace := Nat.two_pow_pos (F.mw + 2 - k)
  have hpow3 : 2 ^ (F.mw + 3) = 2 * 2 ^ (F.mw + 2) := by rw [pow_succ]; ring
  have hpow4 : 2 ^ (F.mw + 4) = 2 * 2 ^ (F.mw + 3) := by rw [pow_succ]; ring
  refine ⟨by omega, hs, by omega, fun hlast => ?_, by omega⟩
  have hlast : k ≤ F.mw + 1 := Nat.le_of_lt_succ hlast
  have hr := hrun.r_eq hlast
  have hhalf : 2 ^ (F.mw + 2 - k) = 2 * 2 ^ (F.mw + 1 - k) := by
    rw [← pow_succ']; congr 1; omega
  omega

end

/-! ### Rounding -/

section

/-- An integer less than a half away from a number is the only one as near. -/
theorem nearest_of_abs_sub_lt_half {i j : Int} {x : ℝ} (h : |(i : ℝ) - x| < 1 / 2) (hj : j ≠ i) :
    |(i : ℝ) - x| < |(j : ℝ) - x| := by
  have hone : (1 : ℝ) ≤ |(j : ℝ) - i| := by exact_mod_cast Int.one_le_abs (sub_ne_zero.2 hj)
  have htri : |(j : ℝ) - i| ≤ |(j : ℝ) - x| + |(i : ℝ) - x| := by
    rw [abs_sub_comm (i : ℝ) x]; exact abs_sub_le _ _ _
  linarith

theorem ne_add_half_of_abs_sub_lt_half {i j : Int} {x : ℝ} (h : |(i : ℝ) - x| < 1 / 2) : x ≠ j + 1 / 2 := by
  rintro rfl
  rw [abs_lt] at h
  have hlow : j < i := by exact_mod_cast (by linarith : (j : ℝ) < i)
  have hhigh : i < j + 1 := by exact_mod_cast (by linarith : (i : ℝ) < j + 1)
  omega

/-- Of two numbers the one on the same side of their midpoint is the nearer one. -/
theorem abs_sub_lt_abs_sub_iff {u t a : ℝ} : |u - a| < |t - a| ↔ 0 < (t - u) * (t + u - 2 * a) := by
  have hfactor : (t - u) * (t + u - 2 * a) = (t - a) ^ 2 - (u - a) ^ 2 := by ring
  rw [hfactor, sub_pos, sq_lt_sq]

/-- The integer `Q` nearest to `x` is nearer than every number that is an integer or lies below a lower bound `P` of
`Q` and `x`: past `P` there is only `P` itself to compare with. -/
theorem nearest_on_grid {P Q : Nat} {x t : ℝ} (hPQ : P ≤ Q) (hPx : P ≤ x)
    (hQ : ∀ j : Int, j ≠ Q → |(Q : ℝ) - x| < |(j : ℝ) - x|) (ht : (∃ j : Int, t = j) ∨ t < P)
    (hne : t ≠ Q) : |(Q : ℝ) - x| < |t - x| := by
  rcases ht with ⟨j, rfl⟩ | hlt
  · exact hQ j (by rintro rfl; exact hne (Int.cast_natCast Q))
  · have hfar : |(P : ℝ) - x| < |t - x| := by
      rw [abs_of_nonpos (by linarith), abs_of_neg (by linarith)]; linarith
    rcases hPQ.eq_or_lt with rfl | hlt
    · exact hfar
    · exact (hQ P (by omega)).trans hfar

/-- The same on a grid of step `g`. -/
theorem nearest_on_scaled_grid {P Q : Nat} {x t g : ℝ} (hg : 0 < g) (hPQ : P ≤ Q) (hPx : P ≤ x)
    (hQ : ∀ j : Int, j ≠ Q → |(Q : ℝ) - x| < |(j : ℝ) - x|) (ht : (∃ j : Int, t = j * g) ∨ t < P * g)
    (hne : t ≠ Q * g) : |Q * g - x * g| < |t - x * g| := by
  have hunit : |(Q : ℝ) - x| < |t / g - x| := by
    refine nearest_on_grid hPQ hPx hQ ?_ (by rwa [ne_eq, div_eq_iff hg.ne'])
    exact ht.imp (fun ⟨j, hj⟩ => ⟨j, by rw [hj, mul_div_cancel_right₀ _ hg.ne']⟩) (div_lt_iff₀ hg).2
  calc |Q * g - x * g|
    _ = |(Q : ℝ) - x| * g := by rw [← sub_mul, abs_mul, abs_of_pos hg]
    _ < |t / g - x| * g := mul_lt_mul_of_pos_right hunit hg
    _ = |t - x * g| := by rw [← abs_of_pos hg, ← abs_mul, abs_of_pos hg, sub_mul, div_mul_cancel₀ _ hg.ne']

variable {N q : Nat}

theorem sqrt_bounds_of_sq_bounds (h1 : q ^ 2 ≤ N) (h2 : N < (q + 1) ^ 2) :
    (q : ℝ) ≤ Real.sqrt N ∧ Real.sqrt N < q + 1 :=
  ⟨Real.le_sqrt_of_sq_le (by exact_mod_cast h1), (Real.sqrt_lt' (by positivity)).2 (by exact_mod_cast h2)⟩

theorem lt_sqrt_of_sq_ne (h1 : q ^ 2 ≤ N) (hne : N ≠ q ^ 2) : (q : ℝ) < Real.sqrt N :=
  Real.lt_sqrt_of_sq_lt (by exact_mod_cast lt_of_le_of_ne h1 hne.symm)

/-- A multiple of 4 has no odd square root: there is no tie (R153(b), (d)). -/
theorem even_of_sq_eq (h4 : 4 ∣ N) (h : N = q ^ 2) : q % 2 = 0 := by
  have heven : 2 ∣ q ^ 2 := h ▸ Nat.dvd_trans (by norm_num) h4
  exact Nat.mod_eq_zero_of_dvd (Nat.prime_two.dvd_of_dvd_pow heven)

/-- The root, rounded by its guard bit, lies less than a half from `sqrt N / 2` (R153(e)). -/
theorem abs_sub_half_sqrt_lt (h4 : 4 ∣ N) (h1 : q ^ 2 ≤ N) (h2 : N < (q + 1) ^ 2) :
    |(((q + q % 2) / 2 : Nat) : ℝ) - Real.sqrt N / 2| < 1 / 2 := by
  obtain ⟨hlow, hhigh⟩ := sqrt_bounds_of_sq_bounds h1 h2
  rw [abs_sub_lt_iff]
  rcases Nat.even_or_odd' q with ⟨c, rfl | rfl⟩
  · rw [show (2 * c + 2 * c % 2) / 2 = c by omega]
    push_cast at hlow hhigh
    constructor <;> linarith
  · have hne : N ≠ (2 * c + 1) ^ 2 := fun h => by have := even_of_sq_eq h4 h; omega
    have hlow' := lt_sqrt_of_sq_ne h1 hne
    rw [show (2 * c + 1 + (2 * c + 1) % 2) / 2 = c + 1 by omega]
    push_cast at hlow' hhigh ⊢
    constructor <;> linarith

theorem roundRoot_eq {w : Work} (h : w.ix = 0 → w.q % 2 = 0) : roundRoot w = w.q + w.q % 2 := by
  by_cases h0 : w.ix = 0
  · rw [roundRoot, if_neg (not_not.2 h0), h h0, Nat.add_zero]
  · rw [roundRoot, if_pos h0, Nat.and_one_is_mod]

end

section

variable {F : Format} {sig2 : Nat}

/-- The largest radicand (R153(c)). -/
theorem radicand_le (h : sig2 ≤ 2 ^ (F.mw + 2) - 2) :
    sig2 * 2 ^ (F.mw + 2) ≤ 2 ^ (2 * F.mw + 4) - 2 ^ (F.mw + 3) := by
  calc sig2 * 2 ^ (F.mw + 2)
    _ ≤ (2 ^ (F.mw + 2) - 2) * 2 ^ (F.mw + 2) := Nat.mul_le_mul_right _ h
    _ = 2 ^ (2 * F.mw + 4) - 2 ^ (F.mw + 3) := by
        rw [Nat.sub_mul, ← pow_add, ← pow_succ']; congr 2; ring

/-- The largest radicand lies below the square of a root that is all ones (R153(c)). -/
theorem largest_radicand_lt_sq (m : Nat) : 2 ^ (2 * m + 4) - 2 ^ (m + 3) < (2 ^ (m + 2) - 1) ^ 2 := by
  have hsq : 2 ^ (2 * m + 4) = 2 ^ (m + 2) * 2 ^ (m + 2) := by rw [← pow_add]; congr 1; ring
  have hdouble : 2 ^ (m + 3) = 2 * 2 ^ (m + 2) := pow_succ' 2 (m + 2)
  obtain ⟨P, hP⟩ : ∃ P, 2 ^ (m + 2) = P + 2 := Nat.exists_eq_add_of_le' (Nat.le_self_pow (by omega) 2)
  have hnext : (P + 1) ^ 2 = P * (P + 2) + 1 := by ring
  rw [hsq, hdouble, hP, ← Nat.sub_mul, Nat.add_sub_cancel, show P + 2 - 1 = P + 1 by omega, hnext]
  exact Nat.lt_succ_self _

/-- R153 (a) to (e), for every start an operand can give. -/
theorem roundsToNearest (h1 : 2 ^ F.mw ≤ sig2) (h2 : sig2 ≤ 2 ^ (F.mw + 2) - 2) :
    RoundsToNearest F sig2 (sig2 * 2 ^ (F.mw + 2)) (workRun (workStart F sig2) (niter F))
      (roundRoot (workRun (workStart F sig2) (niter F)) >>> 1) := by
  obtain ⟨hle, hlt, hix, hguard, hlow, hhigh, hQ⟩ := loop_end_and_rounding F h1 h2
  generalize workRun (workStart F sig2) (niter F) = w at *
  have h4 := four_dvd_radicand F sig2
  have hround := roundRoot_eq hguard
  have hp1 : 2 ^ (F.mw + 1) = 2 * 2 ^ F.mw := pow_succ' 2 F.mw
  have hp2 : 2 ^ (F.mw + 2) = 2 * 2 ^ (F.mw + 1) := pow_succ' 2 (F.mw + 1)
  have hnear := abs_sub_half_sqrt_lt h4 hle hlt
  rw [← hQ, ← Int.cast_natCast] at hnear
  have hbelow := radicand_le h2
  generalize hN : sig2 * 2 ^ (F.mw + 2) = N at *
  obtain ⟨hq, hq'⟩ := sqrt_bounds_of_sq_bounds hle hlt
  refine
    { radicand := hN.symm
      a_root := Nat.eq_sqrt'.2 ⟨hle, hlt⟩
      a_remainder := hix
      b_four_dvd := h4
      b_square_even := even_of_sq_eq h4
      b_exact_guard := hguard
      c_start := h2
      c_radicand := hbelow
      c_below_square := largest_radicand_lt_sq F.mw
      c_root_le := hhigh
      c_rounded_le := by omega
      c_kept := rfl
      c_kept_le := by omega
      c_root_ge := by omega
      c_kept_ge := by omega
      d_no_tie := fun j => ne_add_half_of_abs_sub_lt_half hnear
      e_even := fun k hk => ?_
      e_odd := fun k hk => ?_
      nearest := fun j hj => by
        rw [← Int.cast_natCast (roundRoot w >>> 1)]; exact nearest_of_abs_sub_lt_half hnear hj }
  · rw [hk] at hq hq'
    push_cast at hq hq'
    exact ⟨by linarith, by linarith, by omega⟩
  · have hne : N ≠ w.q ^ 2 := fun h => by have := even_of_sq_eq h4 h; omega
    have hstrict := lt_sqrt_of_sq_ne hle hne
    rw [hk] at hstrict hq'
    push_cast at hstrict hq'
    exact ⟨hne, by linarith, by linarith, fun h0 => by have := hguard h0; omega, by omega⟩

end

section

variable {F : Format} {c : NanConfig F} {x : BitVec F.w}

/-! ### The result, case by case (R140) -/

theorem sqrt_of_nan (h : classify F x = .nan) : sqrt F c x = c.prop x := by simp only [sqrt, h]

theorem sqrt_of_zero (h : classify F x = .zero) : sqrt F c x = x := by simp only [sqrt, h]

theorem sqrt_of_posInf (h : classify F x = .inf) (hs : signField F x = 0#1) : sqrt F c x = x := by
  simp [sqrt, h, hs]

theorem sqrt_of_negative (h : classify F x = .inf ∨ classify F x = .subnormal ∨ classify F x = .normal)
    (hs : signField F x = 1#1) : sqrt F c x = c.inv x := by
  rcases h with h | h | h <;> simp [sqrt, h, hs]

theorem sqrt_of_positive (h : classify F x = .subnormal ∨ classify F x = .normal) (hs : signField F x = 0#1) :
    sqrt F c x = roundedRoot F x := by
  rcases h with h | h <;> simp [sqrt, h, hs]

theorem classify_sqrt_of_nan (hc : NanOk c) (h : classify F x = .nan) : classify F (sqrt F c x) = .nan := by
  rw [sqrt_of_nan h]
  exact isNan_iff.1 (hc.1 x (isNan_iff.2 h))

theorem classify_sqrt_of_negative (hc : NanOk c)
    (h : classify F x = .inf ∨ classify F x = .subnormal ∨ classify F x = .normal) (hs : signField F x = 1#1) :
    classify F (sqrt F c x) = .nan := by
  rw [sqrt_of_negative h hs]
  exact isNan_iff.1 (hc.2 x (isInvalid_iff.2 ⟨hs, h⟩))

/-- The table of R140, at any format. -/
theorem sqrt_six_cases (c : NanConfig F) (x : BitVec F.w) :
    (classify F x = .nan → sqrt F c x = c.prop x) ∧
    (classify F x = .inf ∧ signField F x = 0#1 → sqrt F c x = x) ∧
    (classify F x = .inf ∧ signField F x = 1#1 → sqrt F c x = c.inv x) ∧
    (classify F x = .zero → sqrt F c x = x) ∧
    ((classify F x = .subnormal ∨ classify F x = .normal) ∧ signField F x = 1#1 → sqrt F c x = c.inv x) ∧
    ((classify F x = .subnormal ∨ classify F x = .normal) ∧ signField F x = 0#1 → sqrt F c x = roundedRoot F x) :=
  ⟨sqrt_of_nan, fun ⟨h, hs⟩ => sqrt_of_posInf h hs, fun ⟨h, hs⟩ => sqrt_of_negative (.inl h) hs, sqrt_of_zero,
    fun ⟨h, hs⟩ => sqrt_of_negative (.inr h) hs, fun ⟨h, hs⟩ => sqrt_of_positive h hs⟩

/-! ### The ordered tests (R157) -/

theorem classify_signMask (hF : 0 < F.ew) : classify F (signMask F) = .zero := by
  rw [classify_zero hF, signMask_eq_pack, expField_pack, mantField_pack]
  exact ⟨rfl, rfl⟩

theorem isInvalid_eq_false_of_zero (h : classify F x = .zero) : isInvalid F x = false := by
  rw [Bool.eq_false_iff, ne_eq, isInvalid_iff, h]
  simp

theorem not_signMask : ~~~ signMask F = pack F 0#1 (BitVec.allOnes F.ew) (BitVec.allOnes F.mw) := by
  rw [signMask_eq_pack]
  simp only [pack, BitVec.not_append, BitVec.not_zero]
  rfl

/-- All bits but the sign are zero exactly in the two zeros (R157). -/
theorem and_not_signMask_eq_zero_iff (hF : 0 < F.ew) :
    x &&& ~~~ signMask F = 0#F.w ↔ classify F x = .zero := by
  have hand : x &&& ~~~ signMask F = pack F 0#1 (expField F x) (mantField F x) := by
    conv_lhs => rw [← pack_fields x, not_signMask, pack_and_pack, BitVec.and_zero, BitVec.and_allOnes,
      BitVec.and_allOnes]
  rw [hand, classify_zero hF, ← BitVec.toNat_inj, toNat_pack]
  simp

/-- The tests of R157, in their order. -/
theorem sqrt_eq_ordered_tests (hF : 0 < F.ew) (c : NanConfig F) (x : BitVec F.w) :
    sqrt F c x =
      if (expField F x).toNat = emaxField F then
        (if (mantField F x).toNat ≠ 0 then c.prop x else if signField F x = 0#1 then x else c.inv x)
      else if x &&& ~~~ signMask F = 0#F.w then x
      else if x &&& signMask F ≠ 0#F.w then c.inv x
      else roundedRoot F x := by
  simp only [and_not_signMask_eq_zero_iff hF, ← signField_eq_one_iff]
  by_cases hexp : (expField F x).toNat = emaxField F
  · rw [if_pos hexp]
    by_cases hmant : (mantField F x).toNat = 0
    · have h := classify_inf.2 ⟨hexp, hmant⟩
      rw [if_neg (not_not.2 hmant)]
      rcases BitVec.eq_zero_or_eq_one (signField F x) with hs | hs
      · rw [if_pos hs, sqrt_of_posInf h hs]
      · rw [if_neg (by rw [hs]; decide), sqrt_of_negative (.inl h) hs]
    · rw [if_pos hmant, sqrt_of_nan (classify_nan.2 ⟨hexp, hmant⟩)]
  · rw [if_neg hexp]
    by_cases hzero : classify F x = .zero
    · rw [if_pos hzero, sqrt_of_zero hzero]
    · have h : classify F x = .subnormal ∨ classify F x = .normal := by
        rw [expField_eq_emaxField_iff] at hexp
        cases hc : classify F x with
        | zero => exact absurd hc hzero
        | subnormal => exact .inl rfl
        | normal => exact .inr rfl
        | inf => exact absurd (.inl hc) hexp
        | nan => exact absurd (.inr hc) hexp
      rw [if_neg hzero]
      rcases BitVec.eq_zero_or_eq_one (signField F x) with hs | hs
      · rw [if_neg (by rw [hs]; decide), sqrt_of_positive h hs]
      · rw [if_pos hs, sqrt_of_negative (.inr h) hs]

/-! ### What the recurrence is started on (R145, R146) -/

theorem paritySig_of_odd {sig : Nat} {m : Int} (h : m % 2 = 1) : paritySig sig m = sig <<< 1 := if_pos h

theorem paritySig_of_even {sig : Nat} {m : Int} (h : m % 2 = 0) : paritySig sig m = sig :=
  if_neg (by omega)

/-- Doubling the significand of an odd exponent makes up for what halving the exponent drops (R146). -/
theorem paritySig_mul_two_zpow (sig : Nat) (m k : Int) :
    (paritySig sig m : ℚ) * 2 ^ (2 * halfExp m - k) = (sig : ℚ) * 2 ^ (m - k) := by
  rw [halfExp]
  rcases Int.emod_two_eq_zero_or_one m with h | h
  · rw [paritySig_of_even h]
    congr 2; omega
  · have hexp : m - k = 1 + (2 * (m / 2) - k) := by omega
    rw [paritySig_of_odd h, Nat.shiftLeft_eq, hexp, zpow_add₀ two_ne_zero]
    push_cast; ring

theorem halfExp_of_odd {m : Int} (h : m % 2 = 1) : m = 2 * halfExp m + 1 := by rw [halfExp]; omega

theorem halfExp_of_even {m : Int} (h : m % 2 = 0) : m = 2 * halfExp m := by rw [halfExp]; omega

theorem halfExp_le_halfExp {m n : Int} (h : m ≤ n) : halfExp m ≤ halfExp n := Int.ediv_le_ediv two_pos h

theorem halfExp_normExp_range (hF : 1 < F.ew) (h : classify F x = .subnormal ∨ classify F x = .normal) :
    halfExp (1 - (bias F : Int) - F.mw) ≤ halfExp (normExp F x) ∧ halfExp (normExp F x) ≤ halfExp (bias F) :=
  ⟨halfExp_le_halfExp (normExp_range hF h).1, halfExp_le_halfExp (normExp_range hF h).2⟩

theorem significand_normal_eq_or (h : classify F x = .normal) :
    (significand F x).toNat = 2 ^ F.mw ||| (mantField F x).toNat := by
  have hor := Nat.two_pow_add_eq_or_of_lt (mantField F x).isLt 1
  rw [Nat.mul_one] at hor
  rw [significand_normal h, hor]

/-- A positive subnormal is its mantissa field, so its leading zeros are those of the field in a word (R145). -/
theorem eq_setWidth_mantField_of_subnormal (hF : 0 < F.ew) (h : classify F x = .subnormal)
    (hs : signField F x = 0#1) : (mantField F x).setWidth F.w = x := by
  have hexp : expField F x = 0#F.ew := BitVec.eq_of_toNat_eq (by simpa using ((classify_subnormal hF).1 h).1)
  rw [← pack_mantissa, ← hs, ← hexp, pack_fields]

theorem normShift_eq_clz (hF : 0 < F.ew) (h : classify F x = .subnormal)
    (hs : signField F x = 0#1) : F.ew ≤ clz x ∧ normShift F x = clz x - F.ew := by
  have hclz := (subnormalShift_spec ((classify_subnormal hF).1 h).2).1
  rw [eq_setWidth_mantField_of_subnormal hF h hs] at hclz
  rw [normShift_subnormal h, subnormalShift, eq_setWidth_mantField_of_subnormal hF h hs]
  exact ⟨hclz.le, rfl⟩

/-- The value of a positive operand, from its significand (R145). -/
theorem valueOf_positive (hF : 1 < F.ew) (h : classify F x = .subnormal ∨ classify F x = .normal)
    (hs : signField F x = 0#1) :
    valueOf F x = .finite (((significand F x).toNat : ℚ) * 2 ^ (normExp F x - (F.mw : Int))) := by
  rw [value_of_record hF h, hs]; simp

/-- The value of a positive operand, from what the recurrence is started on (R146). -/
theorem valueOf_positive_eq_start (hF : 1 < F.ew) (h : classify F x = .subnormal ∨ classify F x = .normal)
    (hs : signField F x = 0#1) :
    valueOf F x = .finite ((paritySig (significand F x).toNat (normExp F x) : ℚ) *
      2 ^ (2 * halfExp (normExp F x) - (F.mw : Int))) := by
  rw [valueOf_positive hF h hs, paritySig_mul_two_zpow]

/-- A pattern whose value is a positive number is a positive operand. -/
theorem positive_of_valueOf (hF : 1 < F.ew) {v : ℚ} (hv : valueOf F x = .finite v) (hpos : 0 < v) :
    (classify F x = .subnormal ∨ classify F x = .normal) ∧ signField F x = 0#1 := by
  have h := (finite_nonzero_iff hF).2 ⟨v, hv, hpos.ne'⟩
  refine ⟨h, (BitVec.eq_zero_or_eq_one _).resolve_right fun hs => ?_⟩
  have hneg := (value_of_record hF h).symm.trans hv
  rw [hs, FpValue.finite.injEq] at hneg
  have hmag : (0 : ℚ) ≤ (significand F x).toNat * 2 ^ (normExp F x - (F.mw : Int)) := by positivity
  have hone : (1#1).toNat = 1 := rfl
  rw [hone, pow_one] at hneg
  linarith

end

/-! ### The packed root -/

/-- Both formats have more exponents below 1 than mantissa bits, so halving an exponent never leaves the range. -/
theorem mw_add_one_lt_bias {F : Format} (hF : F = fmtS ∨ F = fmtD) : F.mw + 1 < bias F := by
  rcases hF with rfl | rfl <;> decide

section

variable {F : Format} {x : BitVec F.w} (hF : 1 < F.ew) (hbm : F.mw + 1 < bias F)
  (h : classify F x = .subnormal ∨ classify F x = .normal)

include hF hbm h

theorem signField_roundedRoot : signField F (roundedRoot F x) = 0#1 := by
  obtain ⟨-, -, -, -, hsign, -, -⟩ := roundedRoot_fields hF hbm h
  exact hsign

theorem toNat_expField_roundedRoot :
    ((expField F (roundedRoot F x)).toNat : Int) = halfExp (normExp F x) + bias F := by
  obtain ⟨-, -, -, -, -, hexp, -⟩ := roundedRoot_fields hF hbm h
  exact hexp

theorem classify_roundedRoot : classify F (roundedRoot F x) = .normal := by
  obtain ⟨hlow, hhigh, -, -, -, hexp, -⟩ := roundedRoot_fields hF hbm h
  have hmax := (emaxField_eq_two_bias hF).1
  rw [classify_normal]; omega

theorem normExp_roundedRoot : normExp F (roundedRoot F x) = halfExp (normExp F x) := by
  have hexp := toNat_expField_roundedRoot hF hbm h
  rw [normExp_other (by rw [classify_roundedRoot hF hbm h]; decide), trueExp]; omega

theorem significand_roundedRoot : (significand F (roundedRoot F x)).toNat = roundRoot (rootWork F x) >>> 1 := by
  obtain ⟨-, -, -, -, -, -, hmant⟩ := roundedRoot_fields hF hbm h
  rw [significand_normal (classify_roundedRoot hF hbm h), Nat.add_comm, hmant]

theorem valueOf_roundedRoot :
    valueOf F (roundedRoot F x) =
      .finite (((roundRoot (rootWork F x) >>> 1 : Nat) : ℚ) * 2 ^ (halfExp (normExp F x) - (F.mw : Int))) := by
  rw [valueOf_positive hF (.inr (classify_roundedRoot hF hbm h)) (signField_roundedRoot hF hbm h),
    significand_roundedRoot hF hbm h, normExp_roundedRoot hF hbm h]

/-- The packed root as a number, with no slicing (R151). -/
theorem toNat_roundedRoot :
    ((roundedRoot F x).toNat : Int) =
      (roundRoot (rootWork F x) >>> 1 : Nat) + (halfExp (normExp F x) + bias F - 1) * 2 ^ F.mw := by
  obtain ⟨-, -, -, -, hsign, hexp, hmant⟩ := roundedRoot_fields hF hbm h
  rw [toNat_of_signField_zero hsign, ← hmant, ← hexp]
  push_cast; ring

end

/-! ### The nearest number of the format -/

/-- The real root of a value `sig2 * 2^(2h - MW)` (R152). -/
theorem sqrt_start_value (sig2 m : Nat) (h : Int) :
    Real.sqrt (((sig2 : ℚ) * 2 ^ (2 * h - (m : Int)) : ℚ) : ℝ) =
      Real.sqrt (sig2 * 2 ^ (m + 2) : Nat) / 2 ^ (m + 1) * 2 ^ h := by
  have hsplit : (2 : ℝ) ^ (h - (m + 1 : Nat)) = 2 ^ h / 2 ^ (m + 1) := by rw [zpow_sub₀ two_ne_zero, zpow_natCast]
  have hsq : (2 : ℝ) ^ (2 * h - (m : Int)) = 2 ^ (m + 2) * (2 ^ (h - (m + 1 : Nat))) ^ 2 := by
    rw [← zpow_natCast, ← zpow_natCast, ← zpow_mul, ← zpow_add₀ two_ne_zero]
    congr 1; push_cast; ring
  push_cast
  rw [hsq, ← mul_assoc, Real.sqrt_mul (by positivity), Real.sqrt_sq (by positivity), hsplit]
  ring

/-- The same root in steps of the exponent `h` (R153(f)). -/
theorem sqrt_start_value_eq_half_mul (sig2 m : Nat) (h : Int) :
    Real.sqrt (((sig2 : ℚ) * 2 ^ (2 * h - (m : Int)) : ℚ) : ℝ) =
      Real.sqrt (sig2 * 2 ^ (m + 2) : Nat) / 2 * 2 ^ (h - (m : Int)) := by
  rw [sqrt_start_value, zpow_sub₀ two_ne_zero, zpow_natCast, pow_succ (2 : ℝ)]
  ring

section

variable {F : Format}

/-- The numbers of a format from a stored exponent `n + 1` on are multiples of one step, and the others are less than
`2^MW` of these steps. -/
theorem multiple_or_lt_of_rat (hF : 0 < F.ew) {z : BitVec F.w} {t : ℚ} (ht : (valueOf F z).rat? = some t) (n : Nat) :
    (∃ j : Int, t = j * (2 ^ n * smallestPositive F)) ∨ t < 2 ^ F.mw * (2 ^ n * smallestPositive F) := by
  rw [rat_eq_units hF ht]
  by_cases hn : n < (expField F z).toNat
  · left
    obtain ⟨c, hc⟩ : 2 ^ n ∣ units F z := by
      rw [units, if_neg (by omega)]
      exact Dvd.dvd.mul_left (pow_dvd_pow 2 (by omega)) _
    rw [hc]
    rcases signFactor_cases (signField F z) with hs | hs
    · exact ⟨c, by rw [hs]; push_cast; ring⟩
    · exact ⟨-c, by rw [hs]; push_cast; ring⟩
  · right
    have hunits : units F z < 2 ^ F.mw * 2 ^ n := by
      rw [← pow_add]
      exact (units_lt_two_pow z).trans_le (Nat.pow_le_pow_right two_pos (by omega))
    have hcast : (units F z : ℚ) < 2 ^ F.mw * 2 ^ n := by exact_mod_cast hunits
    have hnonneg : (0 : ℚ) ≤ units F z := Nat.cast_nonneg _
    rw [← mul_assoc]
    refine mul_lt_mul_of_pos_right ?_ smallestPositive_pos
    rcases signFactor_cases (signField F z) with hs | hs <;> rw [hs] <;> linarith

/-- R153 (a) to (e) of the loop that a finite nonzero operand starts. -/
theorem roundsToNearest_rootWork (hF : 1 < F.ew) {x : BitVec F.w}
    (h : classify F x = .subnormal ∨ classify F x = .normal) :
    let sig2 := paritySig (significand F x).toNat (normExp F x)
    RoundsToNearest F sig2 (sig2 * 2 ^ (F.mw + 2)) (rootWork F x) (roundRoot (rootWork F x) >>> 1) :=
  roundsToNearest (paritySig_bounds hF h).1 (paritySig_bounds hF h).2

theorem RoundsToNearest.le_sqrt {sig2 N Q : Nat} {w : Work} (h : RoundsToNearest F sig2 N w Q) :
    (2 : ℝ) ^ (F.mw + 1) ≤ Real.sqrt N := by
  refine le_trans ?_ (Real.nat_sqrt_le_real_sqrt (a := N))
  rw [← h.a_root]
  exact_mod_cast h.c_root_ge

theorem RoundsToNearest.sqrt_lt {sig2 N Q : Nat} {w : Work} (h : RoundsToNearest F sig2 N w Q) :
    Real.sqrt N < 2 ^ (F.mw + 2) := by
  refine Real.real_sqrt_lt_nat_sqrt_succ.trans_le ?_
  have hle := h.c_root_le
  have hpos : 2 ≤ 2 ^ (F.mw + 2) := Nat.le_self_pow (by omega) 2
  rw [h.a_root] at hle
  exact_mod_cast (by omega : Nat.sqrt N + 1 ≤ 2 ^ (F.mw + 2))

/-- No number of the format is as near to the root as `Q` steps (R152, R153(f)): at the exponent of the root the
numbers are whole steps, and those of a smaller exponent lie below all roots of this one. -/
theorem isNearestRoot_roundedRoot (hF : 1 < F.ew) (hbm : F.mw + 1 < bias F) {x : BitVec F.w}
    (h : classify F x = .subnormal ∨ classify F x = .normal) (hs : signField F x = 0#1) :
    IsNearestRoot F x (roundedRoot F x) (roundRoot (rootWork F x) >>> 1) := by
  have hrounds := roundsToNearest_rootWork hF h
  obtain ⟨hlow, -, -, -, hsign, hexp, -⟩ := roundedRoot_fields hF hbm h
  have hstep : (2 : ℚ) ^ (halfExp (normExp F x) - (F.mw : Int)) =
      2 ^ ((expField F (roundedRoot F x)).toNat - 1) * smallestPositive F := by
    rw [smallestPositive, ← zpow_natCast, ← zpow_add₀ two_ne_zero]
    congr 1; omega
  have hstart : 0 < paritySig (significand F x).toNat (normExp F x) :=
    (Nat.two_pow_pos _).trans_le (paritySig_bounds hF h).1
  refine ⟨_, _, valueOf_positive_eq_start hF h hs, by positivity, valueOf_roundedRoot hF hbm h,
    hsign, rfl, fun z t ht hne => ?_⟩
  have hgrid := multiple_or_lt_of_rat hF.le ht ((expField F (roundedRoot F x)).toNat - 1)
  rw [← hstep] at hgrid
  have hroot := hrounds.le_sqrt
  rw [pow_succ] at hroot
  have hcast (a : ℚ) : ((a * 2 ^ (halfExp (normExp F x) - (F.mw : Int)) : ℚ) : ℝ) =
      a * 2 ^ (halfExp (normExp F x) - (F.mw : Int)) := by push_cast; rfl
  rw [sqrt_start_value_eq_half_mul, hcast, Rat.cast_natCast]
  refine nearest_on_scaled_grid (P := 2 ^ F.mw) (by positivity) hrounds.c_kept_ge ?_ hrounds.nearest ?_ ?_
  · rw [Nat.cast_pow, Nat.cast_two]; linarith
  · refine hgrid.imp (fun ⟨j, hj⟩ => ⟨j, by rw [hj, hcast, Rat.cast_intCast]⟩) fun hlt => ?_
    exact (Rat.cast_lt.2 hlt).trans_eq (by rw [hcast]; push_cast; rfl)
  · rw [← Rat.cast_natCast, ← hcast]
    exact Rat.cast_injective.ne hne

/-! ### The patterns with sign 0 -/

theorem classify_zero_word (hF : 0 < F.ew) : classify F 0#F.w = .zero := by
  rw [classify_zero hF, ← pack_zero, expField_pack, mantField_pack]
  exact ⟨rfl, rfl⟩

theorem signField_expMask : signField F (expMask F) = 0#1 := by rw [expMask_eq_pack, signField_pack]

theorem eq_zero_word_of_zero (hF : 0 < F.ew) {x : BitVec F.w} (h : classify F x = .zero) (hs : signField F x = 0#1) :
    x = 0#F.w := by
  obtain ⟨hexp, hmant⟩ := (classify_zero hF).1 h
  apply BitVec.eq_of_toNat_eq
  rw [toNat_of_signField_zero hs, hexp, hmant]; simp

/-- Up to +infinity lie +0, the positive finite patterns and +infinity. -/
theorem nonneg_cases (hF : 0 < F.ew) {x : BitVec F.w} (hs : signField F x = 0#1) (hn : classify F x ≠ .nan) :
    x = 0#F.w ∨ (classify F x = .subnormal ∨ classify F x = .normal) ∨ x = expMask F := by
  cases hc : classify F x with
  | zero => exact .inl (eq_zero_word_of_zero hF hc hs)
  | subnormal => exact .inr (.inl (.inl rfl))
  | normal => exact .inr (.inl (.inr rfl))
  | inf => exact .inr (.inr ((classify_inf_iff_eq_expMask hs).1 hc))
  | nan => exact absurd hc hn

theorem zero_word_le (x : BitVec F.w) : 0#F.w ≤ x := by simp [BitVec.le_def]

theorem zero_word_lt_of_positive (hF : 0 < F.ew) {x : BitVec F.w}
    (h : classify F x = .subnormal ∨ classify F x = .normal) : 0#F.w < x := by
  refine BitVec.lt_of_le_ne (zero_word_le x) ?_
  rintro rfl
  rw [classify_zero_word hF] at h
  simp at h

theorem lt_expMask_of_positive {x : BitVec F.w} (h : classify F x = .subnormal ∨ classify F x = .normal)
    (hs : signField F x = 0#1) : x < expMask F := by
  rw [lt_expMask_iff hs]
  intro hexp
  rcases expField_eq_emaxField_iff.1 hexp with hc | hc <;> simp [hc] at h

theorem le_expMask_of_nonneg (hF : 0 < F.ew) {x : BitVec F.w} (hs : signField F x = 0#1)
    (hn : classify F x ≠ .nan) : x ≤ expMask F := by
  rcases nonneg_cases hF hs hn with rfl | h | rfl
  · exact zero_word_le _
  · exact BitVec.le_of_lt (lt_expMask_of_positive h hs)
  · exact BitVec.le_refl _

theorem sqrt_zero_word (hF : 0 < F.ew) (c : NanConfig F) : sqrt F c 0#F.w = 0#F.w :=
  sqrt_of_zero (classify_zero_word hF)

theorem sqrt_expMask (c : NanConfig F) : sqrt F c (expMask F) = expMask F :=
  sqrt_of_posInf ((classify_inf_iff_eq_expMask signField_expMask).2 rfl) signField_expMask

/-- With sign 0 no two patterns stand for one number. -/
theorem eq_of_rat_eq (hF : 0 < F.ew) {x y : BitVec F.w} {u : ℚ} (hx : signField F x = 0#1) (hy : signField F y = 0#1)
    (hu : (valueOf F x).rat? = some u) (hv : (valueOf F y).rat? = some u) : x = y := by
  rcases BitVec.lt_trichotomy x y with h | h | h
  · exact absurd ((rat_lt_rat_iff hF hx hy hu hv).2 h) (lt_irrefl u)
  · exact h
  · exact absurd ((rat_lt_rat_iff hF hy hx hv hu).2 h) (lt_irrefl u)

theorem eq_zero_word_of_rat (hF : 0 < F.ew) {x : BitVec F.w} (hs : signField F x = 0#1)
    (h : (valueOf F x).rat? = some 0) : x = 0#F.w := by
  have hzero : signField F 0#F.w = 0#1 := by rw [← pack_zero, signField_pack]
  exact eq_of_rat_eq hF hs hzero h (by rw [valueOf_zero (classify_zero_word hF), FpValue.rat?])

theorem rat_nonneg (hF : 0 < F.ew) {x : BitVec F.w} {u : ℚ} (hs : signField F x = 0#1)
    (hu : (valueOf F x).rat? = some u) : 0 ≤ u := by
  rw [rat_eq_units hF hu, hs, signFactor_zero, one_mul]
  exact mul_nonneg (Nat.cast_nonneg _) smallestPositive_pos.le

/-- A number other than zero is the value of a finite nonzero pattern. -/
theorem finite_of_rat_ne_zero {x : BitVec F.w} {u : ℚ} (hu : (valueOf F x).rat? = some u)
    (hne : u ≠ 0) : valueOf F x = .finite u := by
  cases hv : valueOf F x with
  | zero => rw [hv] at hu; exact absurd (Option.some.inj hu).symm hne
  | finite v => rw [hv] at hu; rw [Option.some.inj hu]
  | inf => rw [hv] at hu; cases hu
  | nan => rw [hv] at hu; cases hu

/-! ### Consequences of the contract (R155) -/

/-- The root of a square is the number squared, if it is one of the format: it is as near as can be. -/
theorem IsNearestRoot.eq_of_square (hF : 0 < F.ew) {x y r : BitVec F.w} {Q : Nat} {w : ℚ} (h : IsNearestRoot F x r Q)
    (hy : signField F y = 0#1) (hw : (valueOf F y).rat? = some w) (hx : valueOf F x = .finite (w ^ 2)) : r = y := by
  obtain ⟨v, u, hv, -, hu, hs, -, hnear⟩ := h
  obtain rfl : w ^ 2 = v := FpValue.finite.inj (hx.symm.trans hv)
  have hroot : Real.sqrt ((w ^ 2 : ℚ) : ℝ) = w := by
    push_cast
    exact Real.sqrt_sq (by exact_mod_cast rat_nonneg hF hy hw)
  have heq : w = u := by
    by_contra hne
    have hcloser := hnear y w hw hne
    rw [hroot, sub_self, abs_zero] at hcloser
    exact absurd hcloser (abs_nonneg _).not_gt
  exact eq_of_rat_eq hF hs hy (by rw [hu, FpValue.rat?]) (heq ▸ hw)

/-- Nearest numbers of a format are in the order of what they are nearest to: if they crossed, the root of `x` would lie
above the midpoint of both and that of `x'` below it. -/
theorem IsNearestRoot.mono (hF : 0 < F.ew) {x x' r r' : BitVec F.w} {Q Q' : Nat} (h : IsNearestRoot F x r Q)
    (h' : IsNearestRoot F x' r' Q') (hx : signField F x = 0#1) (hx' : signField F x' = 0#1) (hle : x ≤ x') :
    r ≤ r' := by
  obtain ⟨v, u, hv, -, hu, hs, -, hnear⟩ := h
  obtain ⟨v', u', hv', -, hu', hs', -, hnear'⟩ := h'
  have hu : (valueOf F r).rat? = some u := by rw [hu, FpValue.rat?]
  have hu' : (valueOf F r').rat? = some u' := by rw [hu', FpValue.rat?]
  have hvle : v ≤ v' := by
    rw [← not_lt, rat_lt_rat_iff hF hx' hx (by rw [hv', FpValue.rat?]) (by rw [hv, FpValue.rat?]), BitVec.not_lt]
    exact hle
  have hroots : Real.sqrt v ≤ Real.sqrt v' := Real.sqrt_le_sqrt (by exact_mod_cast hvle)
  by_contra hcon
  have hcross : u' < u := (rat_lt_rat_iff hF hs' hs hu' hu).2 (BitVec.not_le.1 hcon)
  have hcross' : (u' : ℝ) < u := by exact_mod_cast hcross
  have hbelow := (neg_iff_neg_of_mul_pos (abs_sub_lt_abs_sub_iff.1 (hnear r' u' hu' hcross.ne))).1 (by linarith)
  have habove := (pos_iff_pos_of_mul_pos (abs_sub_lt_abs_sub_iff.1 (hnear' r u hu hcross.ne'))).1 (by linarith)
  linarith

/-- The root is monotone up to +infinity (R155(b)): +0 and +infinity are their own roots at the two ends. -/
theorem sqrt_le_sqrt (hF : 1 < F.ew) (hbm : F.mw + 1 < bias F) (c : NanConfig F) {x x' : BitVec F.w}
    (hs : signField F x = 0#1) (hs' : signField F x' = 0#1) (hn : classify F x ≠ .nan) (hn' : classify F x' ≠ .nan)
    (hle : x ≤ x') : sqrt F c x ≤ sqrt F c x' := by
  rcases nonneg_cases hF.le hs hn with rfl | h | rfl
  · rw [sqrt_zero_word hF.le]; exact zero_word_le _
  · rcases nonneg_cases hF.le hs' hn' with rfl | h' | rfl
    · exact absurd (zero_word_lt_of_positive hF.le h) (BitVec.not_lt.2 hle)
    · rw [sqrt_of_positive h hs, sqrt_of_positive h' hs']
      exact (isNearestRoot_roundedRoot hF hbm h hs).mono hF.le (isNearestRoot_roundedRoot hF hbm h' hs') hs hs' hle
    · rw [sqrt_of_positive h hs, sqrt_expMask]
      exact BitVec.le_of_lt
        (lt_expMask_of_positive (.inr (classify_roundedRoot hF hbm h)) (signField_roundedRoot hF hbm h))
  · rw [BitVec.le_antisymm hle (le_expMask_of_nonneg hF.le hs' hn')]
    exact BitVec.le_refl _

/-- All roots of positive operands lie between those of the smallest and the largest one (R156). -/
theorem sqrt_range (hF : 1 < F.ew) (hbm : F.mw + 1 < bias F) (c : NanConfig F) {x lo hi : BitVec F.w}
    (h : classify F x = .subnormal ∨ classify F x = .normal) (hs : signField F x = 0#1)
    (hlo : classify F lo ≠ .nan ∧ signField F lo = 0#1 ∧ lo.toNat = 1)
    (hhi : classify F hi ≠ .nan ∧ signField F hi = 0#1 ∧ hi.toNat + 1 = (expMask F).toNat) :
    sqrt F c lo ≤ sqrt F c x ∧ sqrt F c x ≤ sqrt F c hi := by
  obtain ⟨hlon, hlos, hone⟩ := hlo
  obtain ⟨hhin, hhis, hmax⟩ := hhi
  have hn : classify F x ≠ .nan := by rcases h with h | h <;> rw [h] <;> decide
  have hlow := BitVec.lt_def.1 (zero_word_lt_of_positive hF.le h)
  have hhigh := BitVec.lt_def.1 (lt_expMask_of_positive h hs)
  rw [BitVec.toNat_zero] at hlow
  exact ⟨sqrt_le_sqrt hF hbm c hlos hs hlon hn (BitVec.le_def.2 (by omega)),
    sqrt_le_sqrt hF hbm c hs hhis hn hhin (BitVec.le_def.2 (by omega))⟩

/-! ### The responses the rules allow -/

theorem recordOk_decompose (hF : 1 < F.ew) (hmw : 0 < F.mw) (x : BitVec F.w) : RecordOk F (decompose F x) := by
  obtain ⟨-, -, -, hu, hu', hsh, hn, hn', -⟩ := record_ranges hF hmw x
  exact ⟨congrArg (decompose F) (pack_fields x), hu, hu', hsh, hn, hn'⟩

theorem rootOk_of_nan {y : BitVec F.w} (h : classify F y = .nan) : RootOk F y := by simp [RootOk, h]

theorem rootOk_of_zero {y : BitVec F.w} (h : classify F y = .zero) : RootOk F y := by simp [RootOk, h]

theorem rootOk_of_posInf {y : BitVec F.w} (h : classify F y = .inf) (hs : signField F y = 0#1) : RootOk F y := by
  simp [RootOk, h, hs]

theorem expField_roundedRoot_range (hF : 1 < F.ew) (hbm : F.mw + 1 < bias F) {x : BitVec F.w}
    (h : classify F x = .subnormal ∨ classify F x = .normal) :
    halfExp (1 - bias F - F.mw) + bias F ≤ (expField F (roundedRoot F x)).toNat ∧
    ((expField F (roundedRoot F x)).toNat : Int) ≤ halfExp (bias F) + bias F := by
  have hexp := toNat_expField_roundedRoot hF hbm h
  obtain ⟨hlow, hhigh⟩ := halfExp_normExp_range hF h
  omega

theorem rootOk_roundedRoot (hF : 1 < F.ew) (hbm : F.mw + 1 < bias F) {x : BitVec F.w}
    (h : classify F x = .subnormal ∨ classify F x = .normal) : RootOk F (roundedRoot F x) := by
  have hnormal := classify_roundedRoot hF hbm h
  refine ⟨by rw [hnormal]; decide, fun hinf => ?_,
    fun _ => ⟨signField_roundedRoot hF hbm h, expField_roundedRoot_range hF hbm h⟩⟩
  rw [hnormal] at hinf; cases hinf

theorem rootOk_sqrt (hF : 1 < F.ew) (hbm : F.mw + 1 < bias F) {c : NanConfig F} (hc : NanOk c) (x : BitVec F.w) :
    RootOk F (sqrt F c x) := by
  rcases sqrt_cases c x with ⟨h, -⟩ | ⟨h, -⟩ | ⟨h, heq⟩ | ⟨h, hs, heq⟩ | ⟨h, -, heq⟩
  · exact rootOk_of_nan (classify_sqrt_of_nan hc h)
  · obtain ⟨hs, h⟩ := isInvalid_iff.1 h
    exact rootOk_of_nan (classify_sqrt_of_negative hc h hs)
  · rw [heq]; exact rootOk_of_zero h
  · rw [heq]; exact rootOk_of_posInf h hs
  · rw [heq]; exact rootOk_roundedRoot hF hbm h

/-- Every answer is one the rules allow, whatever the free NaN choices are. -/
theorem answer_ok (i : Instr) : (answer i).Ok := by
  obtain ⟨hS, hD, -⟩ := nanParametersMeetTheirConstraint
  cases i with
  | sqrtS x => exact rootOk_sqrt (F := fmtS) (by decide) (by decide) hS x
  | sqrtD x => exact rootOk_sqrt (F := fmtD) (by decide) (by decide) hD x
  | decS x => exact recordOk_decompose (F := fmtS) (by decide) (by decide) x
  | decD x => exact recordOk_decompose (F := fmtD) (by decide) (by decide) x

theorem inv_answered {s : State} {y : Response} (hs : s.Inv) (hy : y.Ok) : (s.answered y).Inv := by
  intro z hz
  rw [answered_responses, List.mem_append, List.mem_singleton] at hz
  rcases hz with hz | rfl
  · exact hs z hz
  · exact hy

end

/-! ### Both formats in numbers -/

theorem toNat_expField_roundedRoot_S {x : BitVec 32} (h : classify fmtS x = .subnormal ∨ classify fmtS x = .normal) :
    52 ≤ (expField fmtS (roundedRoot fmtS x)).toNat ∧ (expField fmtS (roundedRoot fmtS x)).toNat ≤ 190 := by
  obtain ⟨hlow, hhigh⟩ := expField_roundedRoot_range (F := fmtS) (by decide) (by decide) h
  exact ⟨Int.ofNat_le.1 hlow, Int.ofNat_le.1 hhigh⟩

theorem toNat_expField_roundedRoot_D {x : BitVec 64} (h : classify fmtD x = .subnormal ∨ classify fmtD x = .normal) :
    486 ≤ (expField fmtD (roundedRoot fmtD x)).toNat ∧ (expField fmtD (roundedRoot fmtD x)).toNat ≤ 1534 := by
  obtain ⟨hlow, hhigh⟩ := expField_roundedRoot_range (F := fmtD) (by decide) (by decide) h
  exact ⟨Int.ofNat_le.1 hlow, Int.ofNat_le.1 hhigh⟩

/-! ### The extreme roots (R156) -/

theorem sqrt_smallest_S (c : NanConfig fmtS) : sqrt fmtS c 0x00000001#32 = 0x1A3504F3#32 := by
  rw [sqrt_of_positive (by decide) (by decide)]
  decide

theorem sqrt_largest_S (c : NanConfig fmtS) : sqrt fmtS c 0x7F7FFFFF#32 = 0x5F7FFFFF#32 := by
  rw [sqrt_of_positive (by decide) (by decide)]
  decide

set_option maxRecDepth 4096 in
theorem sqrt_smallest_D (c : NanConfig fmtD) : sqrt fmtD c 0x0000000000000001#64 = 0x1E60000000000000#64 := by
  rw [sqrt_of_positive (by decide) (by decide)]
  decide

set_option maxRecDepth 4096 in
theorem sqrt_largest_D (c : NanConfig fmtD) : sqrt fmtD c 0x7FEFFFFFFFFFFFFF#64 = 0x5FEFFFFFFFFFFFFF#64 := by
  rw [sqrt_of_positive (by decide) (by decide)]
  decide

/-! ### The statements -/

/-- Settles O25: the invariant is kept by every iteration, and after the last one the place of the trial bit is 1. -/
theorem recurrenceInvariant : Obligations.RecurrenceInvariant := by
  intro F sig2 h1 h2 N
  refine ⟨radicand_eq_shiftLeft F sig2, le_radicand h1, radicand_lt h2, fun k hk => ?_, ?_⟩
  · have hrun := recurrence_run F h2 hk
    exact ⟨hrun.r_eq, fun hlast => hlast ▸ workRun_r_eq_zero h2, hrun.q_eq_mul_floor, hrun.s_eq, hrun.sq_le,
      hrun.ix_eq⟩
  · obtain ⟨hq, hix⟩ := recurrence_end F h2
    intro w
    rw [Real.nat_floor_real_sqrt_eq_nat_sqrt, show w.q = Nat.sqrt N from hq]
    exact ⟨rfl, (sqrt_radicand_bounds h1 h2).1, (sqrt_radicand_bounds h1 h2).2, hix, ix_eq_zero_iff_square h2⟩

/-- Settles O28: rounding moves the root by less than one, so the kept bits are less than a half away. -/
theorem roundingGivesTheNearestInteger : Obligations.RoundingGivesTheNearestInteger := by
  intro F sig2 h1 h2 N w Q
  have h : RoundsToNearest F sig2 N w Q := roundsToNearest h1 h2
  have hguard := h.b_exact_guard
  have hround := roundRoot_eq hguard
  have hQ : Q = (w.q + w.q % 2) / 2 := by rw [h.c_kept, hround, Nat.shiftRight_eq_div_pow, pow_one]
  refine ⟨h.a_root, h.a_remainder, fun h0 => ⟨hguard h0, ?_⟩, fun _ => hround, fun _ hodd => ?_, fun heven => ?_,
    h.c_root_le, h.c_rounded_le, h.c_kept_ge, h.c_kept_le, h.nearest⟩
  · rw [hround, hguard h0, Nat.add_zero]
  · rw [hQ, Nat.shiftRight_eq_div_pow, pow_one]; omega
  · rw [hQ, Nat.shiftRight_eq_div_pow, pow_one, heven, Nat.add_zero]

/-- Settles O30: no other number of the format is as near as the packed root, and its fields are `h + BIAS` and `Q`. -/
theorem rootIsCorrectlyRounded : Obligations.RootIsCorrectlyRounded := by
  intro F hF c x v hv hpos
  have hew := one_lt_ew hF
  have hbm := mw_add_one_lt_bias hF
  obtain ⟨h, hs⟩ := positive_of_valueOf hew hv hpos
  have hrounds := roundsToNearest_rootWork hew h
  obtain ⟨v', u, hv', -, hu, hsign, hval, hnear⟩ := isNearestRoot_roundedRoot hew hbm h hs
  obtain rfl : v = v' := FpValue.finite.inj (hv.symm.trans hv')
  have hstart := FpValue.finite.inj (hv.symm.trans (valueOf_positive_eq_start hew h hs))
  rw [sqrt_of_positive h hs]
  refine ⟨u, hu, hsign, hnear, ?_, ?_, ?_, toNat_expField_roundedRoot hew hbm h,
    significand_roundedRoot hew hbm h, hval⟩
  · rw [hstart, sqrt_start_value]
  · rw [one_le_div (by positivity)]; exact hrounds.le_sqrt
  · rw [div_lt_iff₀ (by positivity), ← pow_succ']; exact hrounds.sqrt_lt

/-- Settles O31: the root of a square cannot be nearer than the number squared, nearest numbers keep the order of the
roots, and the packed root is a normal pattern. -/
theorem perfectSquaresMonotonicityAndClass : Obligations.PerfectSquaresMonotonicityAndClass := by
  intro F hF c
  have hew := one_lt_ew hF
  have hbm := mw_add_one_lt_bias hF
  refine ⟨fun x y w hx hy hw hsq => ?_, fun x x' hx hx' hn hn' hlt => ?_, fun x hs h => ?_⟩
  · rcases eq_or_ne w 0 with rfl | hw0
    · rw [zero_pow two_ne_zero] at hsq
      rw [eq_zero_word_of_rat hew.le hx hsq, eq_zero_word_of_rat hew.le hy hw, sqrt_zero_word hew.le]
    · have hval := finite_of_rat_ne_zero hsq (pow_ne_zero 2 hw0)
      have h := (finite_nonzero_iff hew).2 ⟨_, hval, pow_ne_zero 2 hw0⟩
      rw [sqrt_of_positive h hx]
      exact (isNearestRoot_roundedRoot hew hbm h hx).eq_of_square hew.le hy hw hval
  · exact sqrt_le_sqrt hew hbm c hx hx' hn hn' (BitVec.le_of_lt hlt)
  · have hnormal := classify_roundedRoot hew hbm h
    rw [sqrt_of_positive h hs]
    exact ⟨zero_word_lt_of_positive hew.le (.inr hnormal),
      lt_expMask_of_positive (.inr hnormal) (signField_roundedRoot hew hbm h), hnormal⟩

/-- Settles O51: a step gives no response or the answer to an instruction, and every answer is allowed. -/
theorem stepKeepsEveryResponseAllowed : Obligations.StepKeepsEveryResponseAllowed := by
  intro s t hs hstep
  rcases step_cases s with ⟨-, h⟩ | ⟨r, rest, -, h⟩
  · cases h.symm.trans hstep
    exact hs
  · rw [exec_eq_next_answered_answer] at h
    cases h.symm.trans hstep
    exact inv_answered hs (answer_ok (decode r))

/-- Settles O53: parts (a) to (e) hold of every start an operand can give, and part (f) of the packed root. -/
theorem algorithmMeetsItsContract : Obligations.AlgorithmMeetsItsContract := by
  intro F hF x hs h sig2 Q
  have hew := one_lt_ew hF
  exact ⟨roundsToNearest_rootWork hew h, isNearestRoot_roundedRoot hew (mw_add_one_lt_bias hF) h hs,
    fun c => sqrt_of_positive h hs⟩

/-- Settles O19: each of these operands has its case of the table; both zeros and `EXP_MASK` are packed words. -/
theorem sqrtPassesZeroInfinityAndNanThrough : Obligations.SqrtPassesZeroInfinityAndNanThrough := by
  intro F hF c hc
  have hew := (one_lt_ew hF).le
  refine ⟨fun x h => sqrt_of_zero h, sqrt_zero_word hew c, sqrt_of_zero (classify_signMask hew), sqrt_expMask c,
    fun x h hs => ⟨sqrt_of_posInf h hs, (classify_inf_iff_eq_expMask hs).1 h⟩,
    fun x h => ⟨sqrt_of_nan h, classify_sqrt_of_nan hc h⟩, fun x => ?_⟩
  rw [refCfg, ofNat_shiftLeft]

/-- Settles O20: an invalid operand takes the NANINV case, whose results every allowed configuration makes NaNs. -/
theorem sqrtOfAnInvalidOperandIsANan : Obligations.SqrtOfAnInvalidOperandIsANan := by
  obtain ⟨hS, hD, -⟩ := nanParametersMeetTheirConstraint
  refine ⟨fun F _ c hc x hs h => ⟨sqrt_of_negative h hs, classify_sqrt_of_negative hc h hs⟩,
    fun F hF x => ⟨?_, isInvalid_eq_false_of_zero (classify_signMask (one_lt_ew hF).le)⟩,
    fun x s hx => ⟨_, exec_eq_next_answered_answer (.sqrtS x) s, ?_⟩,
    fun x s hx => ⟨_, exec_eq_next_answered_answer (.sqrtD x) s, ?_⟩⟩
  · rw [refCfg, ofNat_shiftLeft]
  · obtain ⟨hs, h⟩ := isInvalid_iff.1 hx
    exact classify_sqrt_of_negative hS h hs
  · obtain ⟨hs, h⟩ := isInvalid_iff.1 hx
    exact classify_sqrt_of_negative hD h hs

/-- Settles O24: the ordered tests at any format with an exponent field. -/
theorem nanTestThenZeroTestThenSignTest : Obligations.NanTestThenZeroTestThenSignTest :=
  fun _ hF => sqrt_eq_ordered_tests (one_lt_ew hF).le

/-- Settles O26: the bounds follow from the recurrence's invariant at every iteration; the operand that reaches the
largest remainder is run. -/
theorem workingValuesAreBounded : Obligations.WorkingValuesAreBounded := by
  refine ⟨fun F sig2 _ h k hk => working_values_bounded h hk, fun F hF x h => ?_, rfl, rfl, fun x h k hk => ?_, ?_⟩
  · have hle := (paritySig_bounds (one_lt_ew hF) h).2
    have := Nat.two_pow_pos (F.mw + 2)
    omega
  · obtain ⟨hlow, hhigh⟩ := paritySig_bounds (F := fmtS) (by decide) h
    exact ix_le_of_start hlow hhigh hk
  · decide

/-- Settles O27, class by class; what halving an odd exponent drops, doubling the significand makes up for. -/
theorem operandIsNormalisedAndItsExponentHalved : Obligations.OperandIsNormalisedAndItsExponentHalved := by
  refine ⟨fun F hF x hs h => ?_, fun x h => ?_, fun x h => ?_, rfl, rfl, rfl⟩
  · have hew := one_lt_ew hF
    obtain ⟨hsig, hsig'⟩ := significand_bounds hew.le h
    obtain ⟨hstart, hstart'⟩ := paritySig_bounds hew h
    have hpow := Nat.two_pow_pos (F.mw + 2)
    refine ⟨fun hn => ⟨significand_normal_eq_or hn, normExp_other (by rw [hn]; decide)⟩, fun hsub => ?_, hsig,
      hsig', valueOf_positive hew h hs, fun hodd => ⟨paritySig_of_odd hodd, halfExp_of_odd hodd⟩,
      fun heven => ⟨paritySig_of_even heven, halfExp_of_even heven⟩, hstart, ?_,
      valueOf_positive_eq_start hew h hs⟩
    · obtain ⟨hclz, hshift⟩ := normShift_eq_clz hew.le hsub hs
      rw [← hshift]
      exact ⟨(significand_subnormal hew.le hsub).trans (Nat.shiftLeft_eq _ _).symm, hclz, normExp_subnormal hsub⟩
    · exact Nat.lt_of_le_of_lt hstart' (by omega)
  · obtain ⟨hlow, hhigh⟩ := normExp_range (F := fmtS) (by decide) h
    obtain ⟨hhlow, hhhigh⟩ := halfExp_normExp_range (F := fmtS) (by decide) h
    exact ⟨hlow, hhigh, hhlow, hhhigh⟩
  · obtain ⟨hlow, hhigh⟩ := normExp_range (F := fmtD) (by decide) h
    obtain ⟨hhlow, hhhigh⟩ := halfExp_normExp_range (F := fmtD) (by decide) h
    exact ⟨hlow, hhigh, hhlow, hhhigh⟩

/-- Settles O29: the fields of the packed root are `h + BIAS` and `Q` less its leading bit. -/
theorem reassemblyFormsAgree : Obligations.ReassemblyFormsAgree := by
  refine ⟨fun F hF x h => ?_, fun x h => ?_, fun x h => ?_⟩
  · have hew := one_lt_ew hF
    have hbm := mw_add_one_lt_bias hF
    obtain ⟨-, -, hlow, hhigh, -⟩ := roundedRoot_fields hew hbm h
    exact ⟨hlow, hhigh, rfl, toNat_expField_roundedRoot hew hbm h, toNat_roundedRoot hew hbm h⟩
  · exact toNat_expField_roundedRoot_S h
  · exact toNat_expField_roundedRoot_D h

/-- Settles O32: the class of each case of the table, and monotonicity between the two extreme operands, which are
run. -/
theorem classOfTheResult : Obligations.ClassOfTheResult := by
  refine ⟨fun F hF c hc x => ?_, fun c x hs h => ?_, fun c x hs h => ?_,
    fun c => ⟨sqrt_smallest_S c, sqrt_largest_S c⟩, fun c => ⟨sqrt_smallest_D c, sqrt_largest_D c⟩⟩
  · have hew := one_lt_ew hF
    have hbm := mw_add_one_lt_bias hF
    refine ⟨classify_sqrt_of_nan hc, fun ⟨h, hs⟩ => ?_, fun ⟨hs, h⟩ => classify_sqrt_of_negative hc h hs,
      fun h => ?_, fun ⟨hs, h⟩ => ?_⟩
    · rw [sqrt_of_posInf h hs]; exact ⟨h, hs⟩
    · rw [sqrt_of_zero h]; exact ⟨h, rfl⟩
    · rw [sqrt_of_positive h hs]; exact ⟨classify_roundedRoot hew hbm h, signField_roundedRoot hew hbm h⟩
  · obtain ⟨hlow, hhigh⟩ := toNat_expField_roundedRoot_S h
    rw [← sqrt_of_positive (c := c) h hs] at hlow hhigh
    rw [← sqrt_smallest_S c, ← sqrt_largest_S c]
    exact ⟨hlow, hhigh, sqrt_range (F := fmtS) (by decide) (by decide) c h hs (by decide) (by decide)⟩
  · obtain ⟨hlow, hhigh⟩ := toNat_expField_roundedRoot_D h
    rw [← sqrt_of_positive (c := c) h hs] at hlow hhigh
    rw [← sqrt_smallest_D c, ← sqrt_largest_D c]
    exact ⟨hlow, hhigh, sqrt_range (F := fmtD) (by decide) (by decide) c h hs (by decide) (by decide)⟩

/-- Settles O18: `exec` only answers, and the answer is that of the table at either format. -/
theorem sqrtSelectsOneOfSixCases : Obligations.SqrtSelectsOneOfSixCases := by
  refine ⟨fun x s => ⟨_, exec_eq_next_answered_answer (.sqrtS x) s, ?_⟩,
    fun x s => ⟨_, exec_eq_next_answered_answer (.sqrtD x) s, ?_⟩, BitVec.eq_zero_or_eq_one⟩
  · exact sqrt_six_cases (F := fmtS) blockNanS x
  · exact sqrt_six_cases (F := fmtD) blockNanD x

end Sys2Proof.Machine

/-!
PROOFS of the statements about 43_sqrt_s.md: the contract of `SQRT.S` on the machine (R181), and that it runs the
pseudocode of R180 in registers that wrap. What R180 and R190 share is said once, at any format.
-/

namespace Sys2Proof.Machine

/-! ### The contract on the machine -/

section

variable {F : Format}

theorem ne_nan_of_positive {x : BitVec F.w} (h : classify F x = .subnormal ∨ classify F x = .normal) :
    classify F x ≠ .nan := by
  rcases h with h | h <;> rw [h] <;> decide

/-- The positive finite patterns are those between +0 and +infinity (R90). -/
theorem positive_of_between (hF : 0 < F.ew) {x : BitVec F.w} (hlo : 0#F.w < x) (hhi : x < expMask F) :
    (classify F x = .subnormal ∨ classify F x = .normal) ∧ signField F x = 0#1 := by
  have hs : signField F x = 0#1 := by
    refine (BitVec.eq_zero_or_eq_one _).resolve_right fun hs => ?_
    have hemax : emaxField F ≤ 2 ^ F.ew := Nat.sub_le _ _
    have hmask := Nat.mul_le_mul_right (2 ^ F.mw) (hemax.trans (Nat.le_add_right _ (expField F x).toNat))
    have hone : (1#1).toNat = 1 := rfl
    rw [BitVec.lt_def, toNat_expMask, toNat_eq_fields, hs, hone, Nat.one_mul] at hhi
    omega
  have hn : classify F x ≠ .nan := fun h => (lt_expMask_iff hs).1 hhi (classify_nan.1 h).1
  rcases nonneg_cases hF hs hn with rfl | h | rfl
  · exact absurd hlo (BitVec.lt_irrefl _)
  · exact ⟨h, hs⟩
  · exact absurd hhi (BitVec.lt_irrefl _)

/-- A pattern that stands for a positive number is the only one that does. -/
theorem eq_of_rat_eq_of_pos (hF : 1 < F.ew) {y z : BitVec F.w} {u : ℚ} (hu : 0 < u)
    (hy : valueOf F y = .finite u) (hz : (valueOf F z).rat? = some u) : z = y := by
  obtain ⟨-, hys⟩ := positive_of_valueOf hF hy hu
  obtain ⟨-, hzs⟩ := positive_of_valueOf hF (finite_of_rat_ne_zero hz hu.ne') hu
  exact eq_of_rat_eq hF.le hzs hys hz (by rw [hy, FpValue.rat?])

/-- The packed root is the one pattern nearest to the root: no other pattern stands for its number (R152). -/
theorem roundedRoot_nearest_pattern (hF : 1 < F.ew) (hbm : F.mw + 1 < bias F) {x : BitVec F.w}
    (h : classify F x = .subnormal ∨ classify F x = .normal) (hs : signField F x = 0#1) :
    ∃ v u : ℚ, valueOf F x = .finite v ∧ valueOf F (roundedRoot F x) = .finite u ∧
      ∀ (z : BitVec F.w) (t : ℚ), (valueOf F z).rat? = some t → z ≠ roundedRoot F x →
        |(u : ℝ) - Real.sqrt v| < |(t : ℝ) - Real.sqrt v| := by
  obtain ⟨v, u, hv, -, hu, hsign, -, hnear⟩ := isNearestRoot_roundedRoot hF hbm h hs
  obtain ⟨u', hu', hne⟩ := (finite_nonzero_iff hF).1 (.inr (classify_roundedRoot hF hbm h))
  obtain rfl : u = u' := FpValue.finite.inj (hu.symm.trans hu')
  have hpos : 0 < u := (rat_nonneg hF.le hsign (by rw [hu, FpValue.rat?])).lt_of_ne' hne
  refine ⟨v, u, hv, hu, fun z t ht hz => hnear z t ht ?_⟩
  rintro rfl
  exact hz (eq_of_rat_eq_of_pos hF hpos hu ht)

end

theorem eq_of_answered_eq {s : State} {y y' : Response} (h : s.answered y = s.answered y') : y = y' := by
  have hresponses := congrArg State.responses h
  rw [answered_responses, answered_responses] at hresponses
  exact List.singleton_inj.1 (List.append_cancel_left hresponses)

/-- No other response than the answer can be what `exec` has added to the responses. -/
theorem answer_eq_of_exec {i : Instr} {s : State} {y : Response} (h : exec i s = .next (s.answered y)) :
    y = answer i := by
  rw [exec_eq_next_answered_answer, Host.Outcome.next.injEq] at h
  exact (eq_of_answered_eq h).symm

theorem eq_sqrt_of_exec_sqrtS {x y : BitVec 32} {s : State} (h : exec (.sqrtS x) s = .next (s.answered (.sqrtS y))) :
    y = sqrt fmtS blockNanS x :=
  Response.sqrtS.inj (answer_eq_of_exec h)

/-- The operands of R181. -/
theorem positive_of_range_S {x : BitVec 32} (hlo : 0x00000001#32 ≤ x) (hhi : x ≤ 0x7F7FFFFF#32) :
    (classify fmtS x = .subnormal ∨ classify fmtS x = .normal) ∧ signField fmtS x = 0#1 := by
  have hlo' := BitVec.le_def.1 hlo
  have hhi' := BitVec.le_def.1 hhi
  exact positive_of_between (F := fmtS) (by decide) (BitVec.lt_def.2 (Nat.lt_of_lt_of_le (by decide) hlo'))
    (BitVec.lt_def.2 (Nat.lt_of_le_of_lt hhi' (by decide)))

/-! ### An iteration in registers that wrap (R180, R190) -/

/-- What the registers hold, as the working values of R144. -/
def Regs.work {n : Nat} (k : Regs n) : Work :=
  { ix := k.ix.toNat, s := k.s.toNat, q := k.q.toNat, r := k.r.toNat }

theorem workStep_of_le {w : Work} (h : w.s + w.r ≤ w.ix) :
    workStep w = { ix := (w.ix - (w.s + w.r)) <<< 1, s := w.s + w.r + w.r, q := w.q + w.r, r := w.r >>> 1 } :=
  if_pos h

theorem workStep_of_lt {w : Work} (h : w.ix < w.s + w.r) :
    workStep w = { ix := w.ix <<< 1, s := w.s, q := w.q, r := w.r >>> 1 } :=
  if_neg (Nat.not_le.2 h)

section

variable {n : Nat} {k : Regs n}

theorem regsStep_of_le (h : k.s + k.r ≤ k.ix) :
    regsStep k = { ix := (k.ix - (k.s + k.r)) <<< 1, s := k.s + k.r + k.r, q := k.q + k.r, r := k.r >>> 1 } :=
  if_pos h

theorem regsStep_of_not_le (h : ¬ k.s + k.r ≤ k.ix) :
    regsStep k = { ix := k.ix <<< 1, s := k.s, q := k.q, r := k.r >>> 1 } :=
  if_neg h

theorem toNat_shiftLeft_one {v : BitVec n} (h : v.toNat <<< 1 < 2 ^ n) : (v <<< 1).toNat = v.toNat <<< 1 := by
  rw [BitVec.toNat_shiftLeft, Nat.mod_eq_of_lt h]

/-- An iteration in registers is one on the numbers they hold, if no number it makes needs a wider register. -/
theorem work_regsStep (ht : k.work.s + k.work.r < 2 ^ n) (hix : (workStep k.work).ix < 2 ^ n)
    (hs : (workStep k.work).s < 2 ^ n) (hq : (workStep k.work).q < 2 ^ n) :
    (regsStep k).work = workStep k.work := by
  have htrial : (k.s + k.r).toNat = k.s.toNat + k.r.toNat := BitVec.toNat_add_of_lt ht
  by_cases h : k.s + k.r ≤ k.ix
  · have hfit : k.work.s + k.work.r ≤ k.work.ix := by rw [BitVec.le_def, htrial] at h; exact h
    rw [workStep_of_le hfit] at hix hs hq ⊢
    have hsub : (k.ix - (k.s + k.r)).toNat = k.ix.toNat - (k.s.toNat + k.r.toNat) := by
      rw [BitVec.toNat_sub_of_le h, htrial]
    have hs' : (k.s + k.r + k.r).toNat = k.s.toNat + k.r.toNat + k.r.toNat := by
      rw [BitVec.toNat_add_of_lt (by rw [htrial]; exact hs), htrial]
    rw [regsStep_of_le h, Regs.work, toNat_shiftLeft_one (by rw [hsub]; exact hix), hsub, hs',
      BitVec.toNat_add_of_lt hq, BitVec.toNat_ushiftRight]
    rfl
  · have hfit : k.work.ix < k.work.s + k.work.r := by rw [BitVec.le_def, htrial] at h; exact Nat.lt_of_not_le h
    rw [workStep_of_lt hfit] at hix ⊢
    rw [regsStep_of_not_le h, Regs.work, toNat_shiftLeft_one hix, BitVec.toNat_ushiftRight]
    rfl

/-- The registers hold the working values of the recurrence after every iteration: with four bits more than the
mantissa field they are wide enough (R154). -/
theorem work_regsRepeat {F : Format} {sig2 : Nat} (hn : F.mw + 4 ≤ n) (h : sig2 < 2 ^ (F.mw + 2))
    (hk : k.work = workStart F sig2) {count : Nat} (hcount : count ≤ niter F) :
    (regsRepeat k count).work = workRun (workStart F sig2) count := by
  induction count with
  | zero => exact hk
  | succ count ih =>
    have hold := ih (by omega)
    have hwide : 2 ^ (F.mw + 4) ≤ 2 ^ n := Nat.pow_le_pow_right two_pos hn
    have hpow : 2 ^ (F.mw + 4) = 2 * 2 ^ (F.mw + 3) := pow_succ' 2 (F.mw + 3)
    obtain ⟨-, -, -, htrial, -⟩ := working_values_bounded h (k := count) (by omega)
    obtain ⟨-, hs, hs', -, hix⟩ := working_values_bounded h hcount
    have htrial := htrial hcount
    rw [workRun] at hs hs' hix ⊢
    rw [← hold] at htrial hs hs' hix ⊢
    exact work_regsStep (by omega) (by omega) (by omega) (by omega)

end

/-! ### The operand and the result in registers (R180, R190) -/

section

variable {F : Format} {x : BitVec F.w}

/-- The significand of R180 and R190 in a register. -/
def regsSig (F : Format) (x : BitVec F.w) : BitVec F.w :=
  if expField F x = 0#F.ew then (mantField F x).setWidth F.w <<< (clz x - F.ew)
  else BitVec.ofNat F.w (implicitBit F) ||| (mantField F x).setWidth F.w

/-- The exponent of R180 and R190. -/
def regsExp (F : Format) (x : BitVec F.w) : Int :=
  if expField F x = 0#F.ew then 1 - (bias F : Int) - (clz x - F.ew : Nat)
  else (expField F x).toNat - (bias F : Int)

/-- The significand doubled for an odd exponent, in a register. -/
def regsParitySig (F : Format) (x : BitVec F.w) : BitVec F.w :=
  if regsExp F x % 2 = 1 then regsSig F x <<< 1 else regsSig F x

/-- The registers when the loop starts. -/
def regsStart (F : Format) (x : BitVec F.w) : Regs F.w :=
  { ix := regsParitySig F x <<< 1, q := 0#F.w, s := 0#F.w, r := BitVec.ofNat F.w (firstTrial F) }

/-- The rounding of R150 in registers. -/
def regsRound {n : Nat} (k : Regs n) : BitVec n := if k.ix ≠ 0#n then k.q + (k.q &&& 1#n) else k.q

/-- What R180 and R190 return for a positive finite operand: the kept bits plus the exponent, with no slicing, where
the leading bit of the root adds the 1 that the exponent is short of (R151). -/
def regsRoot (F : Format) (x : BitVec F.w) : BitVec F.w :=
  (regsRound (regsRepeat (regsStart F x) (niter F)) >>> 1) +
    (BitVec.ofInt F.w (regsExp F x / 2 + ((bias F : Int) - 1)) <<< F.mw)

theorem expField_eq_zero_of_subnormal (hF : 0 < F.ew) (h : classify F x = .subnormal) : expField F x = 0#F.ew :=
  BitVec.eq_of_toNat_eq (by simpa using ((classify_subnormal hF).1 h).1)

theorem expField_ne_zero_of_normal (h : classify F x = .normal) : expField F x ≠ 0#F.ew := by
  intro hzero
  exact (classify_normal.1 h).2 (by rw [hzero, BitVec.toNat_zero])

theorem regsExp_eq_normExp (hF : 0 < F.ew) (h : classify F x = .subnormal ∨ classify F x = .normal)
    (hs : signField F x = 0#1) : regsExp F x = normExp F x := by
  rcases h with h | h
  · rw [regsExp, if_pos (expField_eq_zero_of_subnormal hF h), normExp_subnormal h, (normShift_eq_clz hF h hs).2]
  · rw [regsExp, if_neg (expField_ne_zero_of_normal h), normExp_other (by rw [h]; decide), trueExp]

theorem toNat_setWidth_mantField (x : BitVec F.w) : ((mantField F x).setWidth F.w).toNat = (mantField F x).toNat :=
  BitVec.toNat_setWidth_of_le (Nat.le_add_left _ _)

theorem toNat_regsSig (hF : 0 < F.ew) (h : classify F x = .subnormal ∨ classify F x = .normal)
    (hs : signField F x = 0#1) : (regsSig F x).toNat = (significand F x).toNat := by
  have hwide : 2 ^ (F.mw + 1) ≤ 2 ^ F.w := Nat.pow_le_pow_right two_pos (by rw [Format.w]; omega)
  have hsig := (significand F x).isLt
  rcases h with h | h
  · rw [significand_subnormal hF h, (normShift_eq_clz hF h hs).2] at hsig ⊢
    rw [regsSig, if_pos (expField_eq_zero_of_subnormal hF h), BitVec.toNat_shiftLeft, toNat_setWidth_mantField,
      Nat.shiftLeft_eq, Nat.mod_eq_of_lt (hsig.trans_le hwide)]
  · have hbit : implicitBit F = 2 ^ F.mw := Nat.one_shiftLeft _
    have hlt : 2 ^ F.mw < 2 ^ F.w := Nat.pow_lt_pow_right one_lt_two (by rw [Format.w]; omega)
    rw [regsSig, if_neg (expField_ne_zero_of_normal h), BitVec.toNat_or, toNat_setWidth_mantField,
      BitVec.toNat_ofNat, hbit, Nat.mod_eq_of_lt hlt, significand_normal_eq_or h]

theorem toNat_regsParitySig (hF : 1 < F.ew) (h : classify F x = .subnormal ∨ classify F x = .normal)
    (hs : signField F x = 0#1) :
    (regsParitySig F x).toNat = paritySig (significand F x).toNat (normExp F x) := by
  have hbound := (paritySig_bounds hF h).2
  have hwide : 2 ^ (F.mw + 2) ≤ 2 ^ F.w := Nat.pow_le_pow_right two_pos (by rw [Format.w]; omega)
  have hpos := Nat.two_pow_pos (F.mw + 2)
  have hsig := toNat_regsSig hF.le h hs
  rw [regsParitySig, regsExp_eq_normExp hF.le h hs]
  rw [paritySig] at hbound ⊢
  split_ifs at hbound ⊢
  · rw [toNat_shiftLeft_one (by rw [hsig]; omega), hsig]
  · exact hsig

theorem work_regsStart (hF : 3 ≤ F.ew) (h : classify F x = .subnormal ∨ classify F x = .normal)
    (hs : signField F x = 0#1) :
    (regsStart F x).work = workStart F (paritySig (significand F x).toNat (normExp F x)) := by
  have hew : 1 < F.ew := by omega
  have hbound := (paritySig_bounds hew h).2
  have hsig := toNat_regsParitySig hew h hs
  have hwide : 2 ^ (F.mw + 4) ≤ 2 ^ F.w := Nat.pow_le_pow_right two_pos (by rw [Format.w]; omega)
  have hpow : 2 ^ (F.mw + 4) = 8 * 2 ^ (F.mw + 1) := by rw [pow_add, pow_add]; ring
  have hpow' : 2 ^ (F.mw + 2) = 2 * 2 ^ (F.mw + 1) := pow_succ' 2 (F.mw + 1)
  have hpos := Nat.two_pow_pos (F.mw + 1)
  have htrial : firstTrial F = 2 ^ (F.mw + 1) := Nat.one_shiftLeft _
  have hfits : (regsParitySig F x).toNat <<< 1 < 2 ^ F.w := by
    rw [hsig, Nat.shiftLeft_eq, pow_one]; omega
  rw [Regs.work, regsStart, workStart, toNat_shiftLeft_one hfits, hsig, BitVec.toNat_ofNat, BitVec.toNat_ofNat,
    Nat.zero_mod, Nat.mod_eq_of_lt (by omega)]

theorem toNat_regsRound {n : Nat} (hn : 0 < n) {k : Regs n} (h : k.work.q + 1 < 2 ^ n) :
    (regsRound k).toNat = roundRoot k.work := by
  have hzero : k.ix ≠ 0#n ↔ k.work.ix ≠ 0 := by rw [ne_eq, ← BitVec.toNat_inj, BitVec.toNat_zero]; rfl
  have hone : (1#n).toNat = 1 := by rw [BitVec.toNat_ofNat, Nat.mod_eq_of_lt (Nat.one_lt_two_pow hn.ne')]
  have hguard : (k.q &&& 1#n).toNat = k.work.q &&& 1 := by rw [BitVec.toNat_and, hone]; rfl
  have hle : k.work.q &&& 1 ≤ 1 := Nat.and_le_right
  rw [regsRound, roundRoot]
  simp only [hzero]
  split_ifs
  · rw [BitVec.toNat_add_of_lt (by rw [hguard]; exact h.trans_le' (Nat.add_le_add_left hle _)), hguard]; rfl
  · rfl

/-- The packed root in the form with no slicing, in a word (R151). -/
theorem roundedRoot_eq_add_shiftLeft (hF : 1 < F.ew) (hbm : F.mw + 1 < bias F)
    (h : classify F x = .subnormal ∨ classify F x = .normal) :
    roundedRoot F x = BitVec.ofNat F.w (roundRoot (rootWork F x) >>> 1) +
      BitVec.ofInt F.w (halfExp (normExp F x) + ((bias F : Int) - 1)) <<< F.mw := by
  have hnat := toNat_roundedRoot hF hbm h
  have hpow : BitVec.ofInt F.w (2 ^ F.mw) = BitVec.twoPow F.w F.mw := by
    apply BitVec.eq_of_toNat_eq
    rw [← Nat.cast_two, ← Nat.cast_pow, BitVec.ofInt_natCast, BitVec.toNat_ofNat, BitVec.toNat_twoPow]
  calc roundedRoot F x
    _ = BitVec.ofInt F.w (roundedRoot F x).toNat := by
        rw [BitVec.ofInt_natCast, BitVec.ofNat_toNat, BitVec.setWidth_eq]
    _ = _ := by
        rw [hnat, BitVec.ofInt_add, BitVec.ofInt_mul, BitVec.ofInt_natCast, hpow, ← BitVec.shiftLeft_eq_mul_twoPow,
          add_sub_assoc]

/-- Registers of the width of the format return the packed root (R92). -/
theorem regsRoot_eq_roundedRoot (hF : 3 ≤ F.ew) (hbm : F.mw + 1 < bias F)
    (h : classify F x = .subnormal ∨ classify F x = .normal) (hs : signField F x = 0#1) :
    regsRoot F x = roundedRoot F x := by
  have hew : 1 < F.ew := by omega
  have hbound := (paritySig_bounds hew h).2
  have hpos := Nat.two_pow_pos (F.mw + 2)
  have hstart : paritySig (significand F x).toNat (normExp F x) < 2 ^ (F.mw + 2) := by omega
  have hwork : (regsRepeat (regsStart F x) (niter F)).work = rootWork F x :=
    work_regsRepeat (by rw [Format.w]; omega) hstart (work_regsStart hF h hs) le_rfl
  have hq : (rootWork F x).q ≤ 2 ^ (F.mw + 2) - 2 := (roundsToNearest_rootWork hew h).c_root_le
  have hwide : 2 ^ (F.mw + 2) < 2 ^ F.w := Nat.pow_lt_pow_right one_lt_two (by rw [Format.w]; omega)
  have hfits : (rootWork F x).q + 1 < 2 ^ F.w := by omega
  have hround : (regsRound (regsRepeat (regsStart F x) (niter F))).toNat = roundRoot (rootWork F x) := by
    rw [← hwork]
    exact toNat_regsRound (by rw [Format.w]; omega) (hwork ▸ hfits)
  have hkept : regsRound (regsRepeat (regsStart F x) (niter F)) >>> 1 =
      BitVec.ofNat F.w (roundRoot (rootWork F x) >>> 1) := by
    rw [← hround, ← BitVec.toNat_ushiftRight, BitVec.ofNat_toNat, BitVec.setWidth_eq]
  rw [regsRoot, hkept, regsExp_eq_normExp hew.le h hs, roundedRoot_eq_add_shiftLeft hew hbm h, halfExp]

theorem positive_of_finite_nonzero (hmax : (expField F x).toNat ≠ emaxField F) (hzero : classify F x ≠ .zero) :
    classify F x = .subnormal ∨ classify F x = .normal := by
  cases hc : classify F x with
  | zero => exact absurd hc hzero
  | subnormal => exact .inl rfl
  | normal => exact .inr rfl
  | inf => exact absurd (classify_inf.1 hc).1 hmax
  | nan => exact absurd (classify_nan.1 hc).1 hmax

/-- The tests of R180 and R190, on the fields as words. -/
theorem sqrt_eq_field_tests (hF : 3 ≤ F.ew) (hbm : F.mw + 1 < bias F) (c : NanConfig F) (x : BitVec F.w) :
    sqrt F c x =
      if expField F x = BitVec.ofNat F.ew (emaxField F) then
        (if mantField F x ≠ 0#F.mw then c.prop x else if signField F x = 0#1 then x else c.inv x)
      else if expField F x = 0#F.ew ∧ mantField F x = 0#F.mw then x
      else if signField F x = 1#1 then c.inv x
      else regsRoot F x := by
  have hew : 0 < F.ew := by omega
  have hmax : emaxField F < 2 ^ F.ew := Nat.sub_one_lt (Nat.two_pow_pos F.ew).ne'
  have hspecial : (expField F x).toNat = emaxField F ↔ expField F x = BitVec.ofNat F.ew (emaxField F) := by
    rw [← BitVec.toNat_inj, BitVec.toNat_ofNat, Nat.mod_eq_of_lt hmax]
  have hnan : (mantField F x).toNat ≠ 0 ↔ mantField F x ≠ 0#F.mw := by
    rw [ne_eq, ne_eq, ← BitVec.toNat_inj, BitVec.toNat_zero]
  have hzero : x &&& ~~~ signMask F = 0#F.w ↔ expField F x = 0#F.ew ∧ mantField F x = 0#F.mw := by
    rw [and_not_signMask_eq_zero_iff hew, classify_zero hew, ← BitVec.toNat_inj, ← BitVec.toNat_inj,
      BitVec.toNat_zero, BitVec.toNat_zero]
  rw [sqrt_eq_ordered_tests hew]
  refine ite_congr (propext hspecial) (fun _ => ite_congr (propext hnan) (fun _ => rfl) fun _ => rfl)
    fun hfinite => ite_congr (propext hzero) (fun _ => rfl)
    fun hnonzero => ite_congr (propext (signField_eq_one_iff x).symm) (fun _ => rfl) fun hpos => ?_
  have h : classify F x = .subnormal ∨ classify F x = .normal := by
    rw [← hzero, and_not_signMask_eq_zero_iff hew] at hnonzero
    exact positive_of_finite_nonzero (mt hspecial.1 hfinite) hnonzero
  exact (regsRoot_eq_roundedRoot hF hbm h ((BitVec.eq_zero_or_eq_one _).resolve_right hpos)).symm

end

/-- The pseudocode of R180 is the tests and the registers above, at format S. -/
theorem ruleR180_eq_sqrt (c : NanConfig fmtS) (x : BitVec 32) : ruleR180 c x = sqrt fmtS c x := by
  rw [sqrt_eq_field_tests (F := fmtS) (by decide) (by decide)]; rfl

/-! ### The statements -/

/-- Settles O35: in this range lie the positive operands, `exec` only answers, and the answer is the packed root. -/
theorem sqrtSMeetsItsContract : Obligations.SqrtSMeetsItsContract := by
  refine ⟨fun x s hlo hhi => ?_, fun x x' y y' s hlo hle hhi hy hy' => ?_⟩
  · obtain ⟨h, hs⟩ := positive_of_range_S hlo hhi
    obtain ⟨v, u, hv, hu, hnear⟩ := roundedRoot_nearest_pattern (F := fmtS) (by decide) (by decide) h hs
    obtain ⟨hexp, hexp'⟩ := toNat_expField_roundedRoot_S h
    have hsign := signField_roundedRoot (F := fmtS) (by decide) (by decide) h
    refine ⟨roundedRoot fmtS x, v, u, ?_, hv, hu, hnear, hsign, hexp, hexp'⟩
    rw [← sqrt_of_positive (c := blockNanS) h hs]
    exact exec_eq_next_answered_answer (.sqrtS x) s
  · rw [eq_sqrt_of_exec_sqrtS hy, eq_sqrt_of_exec_sqrtS hy']
    obtain ⟨h, hs⟩ := positive_of_range_S hlo (BitVec.le_trans hle hhi)
    obtain ⟨h', hs'⟩ := positive_of_range_S (BitVec.le_trans hlo hle) hhi
    exact sqrt_le_sqrt (F := fmtS) (by decide) (by decide) blockNanS hs hs' (ne_nan_of_positive h)
      (ne_nan_of_positive h') hle

/-- Settles O33: the rule's result is the square root of the machine, `exec` only answers with it, and the corner cases
are run. -/
theorem sqrtSRunsItsRule : Obligations.SqrtSRunsItsRule := by
  refine ⟨fun x s => ?_, fun c x => (ruleR180_eq_sqrt c x).symm, decode_code_sqrtS, fun y => ?_, ?_⟩
  · rw [ruleR180_eq_sqrt]; exact exec_eq_next_answered_answer (.sqrtS x) s
  · exact congrArg some (busOfS_eq y)
  · intro p hp
    fin_cases hp <;> decide

end Sys2Proof.Machine

/-!
PROOFS of the statements about 44_sqrt_d.md: the contract of `SQRT.D` on the machine (R191), and that it runs the
pseudocode of R190 in registers that wrap.
-/

namespace Sys2Proof.Machine

theorem eq_sqrt_of_exec_sqrtD {x y : BitVec 64} {s : State} (h : exec (.sqrtD x) s = .next (s.answered (.sqrtD y))) :
    y = sqrt fmtD blockNanD x :=
  Response.sqrtD.inj (answer_eq_of_exec h)

/-- The operands of R191. -/
theorem positive_of_range_D {x : BitVec 64} (hlo : 0x0000000000000001#64 ≤ x) (hhi : x ≤ 0x7FEFFFFFFFFFFFFF#64) :
    (classify fmtD x = .subnormal ∨ classify fmtD x = .normal) ∧ signField fmtD x = 0#1 :=
  positive_of_between (F := fmtD) (by decide)
    (BitVec.lt_def.2 (Nat.lt_of_lt_of_le (by decide) (BitVec.le_def.1 hlo)))
    (BitVec.lt_def.2 (Nat.lt_of_le_of_lt (BitVec.le_def.1 hhi) (by decide)))

/-- The pseudocode of R190 is the tests and the registers of both formats, at format D. -/
theorem ruleR190_eq_sqrt (c : NanConfig fmtD) (x : BitVec 64) : ruleR190 c x = sqrt fmtD c x := by
  rw [sqrt_eq_field_tests (F := fmtD) (by decide) (by decide)]; rfl

/-! ### The statements -/

/-- Settles O36: in this range lie the positive operands, `exec` only answers, and the answer is the packed root. -/
theorem sqrtDMeetsItsContract : Obligations.SqrtDMeetsItsContract := by
  refine ⟨fun x s hlo hhi => ?_, fun x x' y y' s hlo hle hhi hy hy' => ?_⟩
  · obtain ⟨h, hs⟩ := positive_of_range_D hlo hhi
    obtain ⟨v, u, hv, hu, hnear⟩ := roundedRoot_nearest_pattern (F := fmtD) (by decide) (by decide) h hs
    have hsign := signField_roundedRoot (F := fmtD) (by decide) (by decide) h
    refine ⟨roundedRoot fmtD x, v, u, ?_, hv, hu, hnear, hsign, toNat_expField_roundedRoot_D h⟩
    rw [← sqrt_of_positive (c := blockNanD) h hs]
    exact exec_eq_next_answered_answer (.sqrtD x) s
  · rw [eq_sqrt_of_exec_sqrtD hy, eq_sqrt_of_exec_sqrtD hy']
    obtain ⟨h, hs⟩ := positive_of_range_D hlo (BitVec.le_trans hle hhi)
    obtain ⟨h', hs'⟩ := positive_of_range_D (BitVec.le_trans hlo hle) hhi
    exact sqrt_le_sqrt (F := fmtD) (by decide) (by decide) blockNanD hs hs' (ne_nan_of_positive h)
      (ne_nan_of_positive h') hle

set_option maxRecDepth 4096 in
/-- Settles O34: the rule's result is the square root of the machine, `exec` only answers with it, and the corner cases
are run. -/
theorem sqrtDRunsItsRule : Obligations.SqrtDRunsItsRule := by
  refine ⟨fun x s => ?_, fun c x => (ruleR190_eq_sqrt c x).symm, decode_code_sqrtD, ?_⟩
  · rw [ruleR190_eq_sqrt]; exact exec_eq_next_answered_answer (.sqrtD x) s
  · intro p hp
    fin_cases hp <;> decide

end Sys2Proof.Machine

/-!
PROOFS of the statements about 60_exceptions.md: no step stops (R200, R203), and the order of the requests changes no
response (R209).
-/

namespace Sys2Proof.Machine

/-- A run with a step for each request, from no responses, ends with the answers in the order of the requests. -/
theorem responses_of_run {rs : List Request} {t : State}
    (h : core.run rs.length { requests := rs, responses := [] } = .next t) :
    t.responses = rs.map fun r => answer (decode r) := by
  cases (run_answers_requests rs [] 0).symm.trans h
  exact List.nil_append _

/-! ### The statements -/

/-- Settles O46, by the two things a step can do: it idles, or it performs an instruction, which goes on. -/
theorem noStepEverStops : Obligations.NoStepEverStops := by
  intro s
  obtain ⟨-, hidle⟩ | ⟨r, rest, -, hexec⟩ := step_cases s
  · exact ⟨s, hidle⟩
  · exact ⟨_, hexec.trans (exec_eq_next_answered_answer (decode r) _)⟩

/-- Settles O49: the responses of a run are the image of its requests under one function, and a step answers a single
request with its value there. -/
theorem interleavingsGiveTheSameResponses : Obligations.InterleavingsGiveTheSameResponses := by
  intro rs rs' t t' hperm ht ht'
  rw [responses_of_run ht, responses_of_run ht']
  exact ⟨hperm.map _, fun r hr => ⟨answer (decode r), List.mem_map_of_mem hr, step_answers_oldest rfl⟩⟩

end Sys2Proof.Machine

/-!
PROOFS of the statements about 70_reset_and_hazards.md: the state after reset (R220), and the first operation after
reset and every later one (R222).
-/

namespace Sys2Proof.Machine

/-- A run with a step for each of the older requests answers those and leaves the newer ones outstanding. -/
theorem run_length_append (older newer : List Request) (ys : List Response) :
    core.run older.length { requests := older ++ newer, responses := ys } =
      .next { requests := newer, responses := ys ++ older.map fun r => answer (decode r) } := by
  induction older generalizing ys with
  | nil => rw [List.map_nil, List.append_nil]; rfl
  | cons r older ih =>
    rw [List.length_cons, List.cons_append, run_succ_of_step (step_answers_oldest rfl), ih, List.map_cons,
      List.append_assoc, List.singleton_append]

/-- With nothing answered there is no response to check. -/
theorem inv_of_no_responses {s : State} (h : s.responses = []) : s.Inv := by
  intro y hy
  rw [h] at hy
  cases hy

/-! ### The statements -/

/-- Settles O50: the run leaves the last request alone, and a step answers it after the responses given before. -/
theorem everyOperationAfterResetGivesItsValue : Obligations.EveryOperationAfterResetGivesItsValue := by
  intro before r t ht
  cases (run_length_append before [r] State.reset.responses).symm.trans ht
  exact step_answers_oldest rfl

/-- Settles O52: both lists are empty after reset, so there is no response that could break the invariant. -/
theorem resetMeetsTheInvariant : Obligations.ResetMeetsTheInvariant :=
  ⟨reset_requests, reset_responses, inv_of_no_responses reset_responses⟩

end Sys2Proof.Machine

/-!
PROOFS of the statements about 92_eei_decisions.md (D5): how far the results of the square root depend on the open
parameters.
-/

namespace Sys2Proof.Machine

/-- Only a NaN or an invalid operand reads the configuration, and an allowed one makes the result a NaN there. -/
theorem sqrt_eq_of_ne_nan {F : Format} {c : NanConfig F} {x : BitVec F.w} (hc : NanOk c)
    (hres : classify F (sqrt F c x) ≠ .nan) (c' : NanConfig F) : sqrt F c x = sqrt F c' x := by
  obtain ⟨h, -⟩ | ⟨h, -⟩ | ⟨h, heq⟩ | ⟨h, hs, heq⟩ | ⟨h, hs, heq⟩ := sqrt_cases c x
  · exact absurd (classify_sqrt_of_nan hc h) hres
  · obtain ⟨hs, hcls⟩ := isInvalid_iff.1 h
    exact absurd (classify_sqrt_of_negative hc hcls hs) hres
  · exact heq.trans (sqrt_of_zero h).symm
  · exact heq.trans (sqrt_of_posInf h hs).symm
  · exact heq.trans (sqrt_of_positive h hs).symm

/-! ### The statements -/

/-- Settles O23, at any format; the second configuration need not even be an allowed one. -/
theorem onlyNanResultsDependOnTheConfiguration : Obligations.OnlyNanResultsDependOnTheConfiguration :=
  fun _ _ _ c' _ hc _ hres => sqrt_eq_of_ne_nan hc hres c'

end Sys2Proof.Machine

/-!
PROOFS of the statements about 95_test_vectors.md: the requests of part 2.7 on a shared 64-bit bus (R43, R62, R64).
-/

namespace Sys2Proof

/-- `SQRT.S` reads the lower half of the bus, whatever stands in the upper one (R62). -/
theorem decode_sqrtS_append (hi lo : BitVec 32) : decode { op := 0b00#2, a := hi ++ lo } = .sqrtS lo := by
  rw [decode_code_sqrtS, operandS_append]

/-- `DEC.S` reads the lower half of the bus, whatever stands in the upper one (R62). -/
theorem decode_decS_append (hi lo : BitVec 32) : decode { op := 0b10#2, a := hi ++ lo } = .decS lo := by
  rw [decode_code_decS, operandS_append]

end Sys2Proof

namespace Sys2Proof.Machine

/-! ### The statements -/

/-- Settles O41, row by row: the bus of a `.S` request is split into the noise and the operand, that of a `.D` request
is the operand. -/
theorem workedRequestsDecode : Obligations.WorkedRequestsDecode :=
  ⟨decode_sqrtS_append 0x00000000#32 0x40000000#32, decode_sqrtS_append 0xDEADBEEF#32 0x40000000#32,
    decode_sqrtS_append 0xFFFFFFFF#32 0x41C80000#32, decode_sqrtS_append 0x40000000#32 0x00000000#32,
    decode_code_sqrtD 0x4000000000000000#64, decode_code_sqrtD 0x0000000040000000#64,
    decode_decS_append 0x12345678#32 0x00000001#32, decode_code_decD 0x1234567800000001#64⟩

end Sys2Proof.Machine
